-- ==== Sys2Proof/Word.lean ====
section
/-! DEFINITION. The word type of the CORE and the size of its address space
(00_scope.md R7 to R9). -/

namespace Sys2Proof

/-- R7, R9: a register, a memory cell and an instruction are all one 16-bit pattern. -/
abbrev Word := BitVec 16

/-- R190: a transaction on an I/O port moves one byte. -/
abbrev Byte := BitVec 8

/-- R7, R50: the memory has 65536 cells, so addresses lie in `[0, 65536)`. -/
abbrev memorySize : Nat := 65536

end Sys2Proof
end

