-- ==== Sys2Proof/Syntax.lean ====
section
/-! DEFINITION. The instruction set as syntax: registers (R86), the 16 opcode variants (R84) and
one constructor of `Instr` for every row of opcode_table.json. -/

namespace Sys2Proof

/-- R22, R86: the eight general registers. -/
inductive Reg where
  | r0 | r1 | r2 | r3 | r4 | r5 | r6 | r7
deriving DecidableEq, Repr

/-- R84: the 16 named variants the decoder tells apart by `instr[15:12]`, in the order of their
numbers. -/
inductive Opcode where
  | br | add | ld | st | jsr | and | ldr | str | rti | not | ldi | sti | jmp | res | lea | trap
deriving DecidableEq, Repr

/-- One constructor per row of opcode_table.json (R85, R96). Operands are the fields of the row's
format, still as wide as they stand in the word; the machine extends them (R89). -/
inductive Instr where
  /-- R170: branch when a flag named by the mask is set. -/
  | br (n z p : Bool) (pcOffset9 : BitVec 9)
  /-- R122: ADD, register form. -/
  | add (dr sr1 sr2 : Reg)
  /-- R123: ADD, immediate form (the table's ADDi). -/
  | addi (dr sr1 : Reg) (imm5 : BitVec 5)
  /-- R141: load PC-relative. -/
  | ld (dr : Reg) (pcOffset9 : BitVec 9)
  /-- R145: store PC-relative. -/
  | st (sr : Reg) (pcOffset9 : BitVec 9)
  /-- R172: call PC-relative. -/
  | jsr (pcOffset11 : BitVec 11)
  /-- R173: call through a register. -/
  | jsrr (baseR : Reg)
  /-- R124: AND, register form. -/
  | and (dr sr1 sr2 : Reg)
  /-- R125: AND, immediate form (the table's ANDi). -/
  | andi (dr sr1 : Reg) (imm5 : BitVec 5)
  /-- R143: load base+offset. -/
  | ldr (dr baseR : Reg) (offset6 : BitVec 6)
  /-- R147: store base+offset. -/
  | str (sr baseR : Reg) (offset6 : BitVec 6)
  /-- R230: reserved; `instr[11:0]` may be anything and is not examined. -/
  | rti (unexamined : BitVec 12)
  /-- R126: bitwise complement. -/
  | not (dr sr : Reg)
  /-- R142: load indirect. -/
  | ldi (dr : Reg) (pcOffset9 : BitVec 9)
  /-- R146: store indirect. -/
  | sti (sr : Reg) (pcOffset9 : BitVec 9)
  /-- R171: jump through a register. -/
  | jmp (baseR : Reg)
  /-- R171, R96: RET, the table's own row for the word of `JMP R7`. -/
  | ret
  /-- R231: reserved; `instr[11:0]` may be anything and is not examined. -/
  | res (unexamined : BitVec 12)
  /-- R144: load effective address. -/
  | lea (dr : Reg) (pcOffset9 : BitVec 9)
  /-- R193: TRAP vector 0x20. -/
  | getc
  /-- R194: TRAP vector 0x21. -/
  | out
  /-- R196: TRAP vector 0x22. -/
  | puts
  /-- R197: TRAP vector 0x23 (the table's IN). -/
  | inChar
  /-- R198: TRAP vector 0x24. -/
  | putsp
  /-- R200: TRAP vector 0x25. -/
  | halt
  /-- R192: the table's TRAP row, every vector the six rows above do not take. -/
  | trap (trapvect8 : BitVec 8)
deriving DecidableEq, Repr

end Sys2Proof
end

