-- ==== Sys2Proof/WellFormed.lean ====
section
/-! DEFINITION. Which terms of `Instr` are the reading of a word. Field widths and register
numbers are right by their types (R86: every register number is legal in every field); what is
left is that the table's exact rows take precedence over the general row with the same words. -/

namespace Sys2Proof

/-- R96, R171: the word of `JMP R7` is read as the table's row RET, so `jmp` names another register. -/
def Instr.jmpBaseOk (baseR : Reg) : Bool := baseR ≠ .r7

/-- R192: "the six exact rows GETC..HALT take precedence", so `trap` holds another vector. -/
def Instr.trapVectorOk (v : BitVec 8) : Bool := !(0x20#8 ≤ v && v ≤ 0x25#8)

/-- The instruction is the reading of exactly one word. -/
def Instr.wellFormed : Instr → Bool
  | .jmp baseR => Instr.jmpBaseOk baseR
  | .trap v => Instr.trapVectorOk v
  | .br _ _ _ _ => true
  | .add _ _ _ => true
  | .addi _ _ _ => true
  | .ld _ _ => true
  | .st _ _ => true
  | .jsr _ => true
  | .jsrr _ => true
  | .and _ _ _ => true
  | .andi _ _ _ => true
  | .ldr _ _ _ => true
  | .str _ _ _ => true
  | .rti _ => true
  | .not _ _ => true
  | .ldi _ _ => true
  | .sti _ _ => true
  | .ret => true
  | .res _ => true
  | .lea _ _ => true
  | .getc => true
  | .out => true
  | .puts => true
  | .inChar => true
  | .putsp => true
  | .halt => true

end Sys2Proof
end

