-- ==== Sys2Proof/Decode.lean ====
section
/-! DEFINITION. The decoder (30_encoding.md R84 to R94), total on every word, and after it the
encoder, written from the bit strings of R85. The field positions stand in one table,
`fieldsOf`, as D2 asks. -/

namespace Sys2Proof

/-- R86: a 3-bit field names R0..R7 by its unsigned value. -/
def Reg.ofBits (b : BitVec 3) : Reg :=
  match b with
  | 0#3 => .r0 | 1#3 => .r1 | 2#3 => .r2 | 3#3 => .r3
  | 4#3 => .r4 | 5#3 => .r5 | 6#3 => .r6 | 7#3 => .r7

/-- R86: the 3-bit number of a register. -/
def Reg.bits : Reg → BitVec 3
  | .r0 => 0 | .r1 => 1 | .r2 => 2 | .r3 => 3
  | .r4 => 4 | .r5 => 5 | .r6 => 6 | .r7 => 7

/-- R84: the variant that a value of `instr[15:12]` selects (the last arm is 0xF alone). -/
def Opcode.ofBits (b : BitVec 4) : Opcode :=
  match b with
  | 0x0#4 => .br  | 0x1#4 => .add | 0x2#4 => .ld  | 0x3#4 => .st
  | 0x4#4 => .jsr | 0x5#4 => .and | 0x6#4 => .ldr | 0x7#4 => .str
  | 0x8#4 => .rti | 0x9#4 => .not | 0xA#4 => .ldi | 0xB#4 => .sti
  | 0xC#4 => .jmp | 0xD#4 => .res | 0xE#4 => .lea
  | _ => .trap

/-- R84: the number of a variant, its position in the source's list. -/
def Opcode.bits : Opcode → BitVec 4
  | .br  => 0x0 | .add => 0x1 | .ld  => 0x2 | .st   => 0x3
  | .jsr => 0x4 | .and => 0x5 | .ldr => 0x6 | .str  => 0x7
  | .rti => 0x8 | .not => 0x9 | .ldi => 0xA | .sti  => 0xB
  | .jmp => 0xC | .res => 0xD | .lea => 0xE | .trap => 0xF

/-- R84: the variant that an instruction is a form of. -/
def Instr.opcode : Instr → Opcode
  | .br _ _ _ _ => .br
  | .add _ _ _ => .add
  | .addi _ _ _ => .add
  | .ld _ _ => .ld
  | .st _ _ => .st
  | .jsr _ => .jsr
  | .jsrr _ => .jsr
  | .and _ _ _ => .and
  | .andi _ _ _ => .and
  | .ldr _ _ _ => .ldr
  | .str _ _ _ => .str
  | .rti _ => .rti
  | .not _ _ => .not
  | .ldi _ _ => .ldi
  | .sti _ _ => .sti
  | .jmp _ => .jmp
  | .ret => .jmp
  | .res _ => .res
  | .lea _ _ => .lea
  | .getc => .trap
  | .out => .trap
  | .puts => .trap
  | .inChar => .trap
  | .putsp => .trap
  | .halt => .trap
  | .trap _ => .trap

/-- R84: "the top 4 bits" of every instruction. -/
def opcodeOf (w : Word) : Opcode := Opcode.ofBits (w.extractLsb' 12 4)

/-- Every field R85 and R89 name, cut out of a word at its bits. -/
structure Fields where
  /-- `instr[11:9]`: DR, or the SR of ST, STI and STR. -/
  reg11_9 : Reg
  /-- `instr[8:6]`: SR1, SR or BaseR. -/
  reg8_6 : Reg
  /-- `instr[2:0]`: SR2. -/
  reg2_0 : Reg
  /-- `instr[11]`, `instr[10]`, `instr[9]`: the branch mask. -/
  n : Bool
  z : Bool
  p : Bool
  /-- `instr[5]`: the mode bit of ADD and AND (R88). -/
  mode5 : Bool
  /-- `instr[11]`: the mode bit of JSR (R88). -/
  mode11 : Bool
  imm5 : BitVec 5
  offset6 : BitVec 6
  pcOffset9 : BitVec 9
  pcOffset11 : BitVec 11
  trapvect8 : BitVec 8
  /-- `instr[11:0]`, not examined by RTI and RES. -/
  low12 : BitVec 12
deriving DecidableEq, Repr

/-- R85, R89: the one table of field positions. -/
def fieldsOf (w : Word) : Fields where
  reg11_9 := Reg.ofBits (w.extractLsb' 9 3)
  reg8_6 := Reg.ofBits (w.extractLsb' 6 3)
  reg2_0 := Reg.ofBits (w.extractLsb' 0 3)
  n := w.getLsbD 11
  z := w.getLsbD 10
  p := w.getLsbD 9
  mode5 := w.getLsbD 5
  mode11 := w.getLsbD 11
  imm5 := w.extractLsb' 0 5
  offset6 := w.extractLsb' 0 6
  pcOffset9 := w.extractLsb' 0 9
  pcOffset11 := w.extractLsb' 0 11
  trapvect8 := w.extractLsb' 0 8
  low12 := w.extractLsb' 0 12

/-- R92: each bit that R85 shows as a digit holds that digit. -/
def fixedBitsOk (w : Word) : Bool :=
  match opcodeOf w with
  | .add => w.getLsbD 5 || w.extractLsb' 3 2 == 0#2
  | .and => w.getLsbD 5 || w.extractLsb' 3 2 == 0#2
  | .not => w.extractLsb' 0 6 == 0b111111#6
  | .jsr => w.getLsbD 11 || (w.extractLsb' 9 2 == 0#2 && w.extractLsb' 0 6 == 0#6)
  | .jmp => w.extractLsb' 9 3 == 0#3 && w.extractLsb' 0 6 == 0#6
  | .trap => w.extractLsb' 8 4 == 0#4
  | .br => true
  | .ld => true
  | .st => true
  | .ldr => true
  | .str => true
  | .ldi => true
  | .sti => true
  | .lea => true
  | .rti => true
  | .res => true

/-- R91: what `decode(instr)` returns for every one of the 65536 words. -/
structure Decoded where
  op : Opcode
  fields : Fields
  wf : Bool
deriving DecidableEq, Repr

/-- R91: the pure, total decoder; it reads nothing but the word and never fails. -/
def decodeRecord (w : Word) : Decoded where
  op := opcodeOf w
  fields := fieldsOf w
  wf := fixedBitsOk w

/-- Why a word is no instruction. The execute phase raises `InvalidOpcode` for it (R92). -/
inductive DecodeReject where
  /-- R92: a fixed bit of this variant's format does not hold its digit. -/
  | fixedBits (op : Opcode)
deriving DecidableEq, Repr

/-- R192: the row of the table that a trap vector belongs to. -/
def trapOfVector (v : BitVec 8) : Instr :=
  if v = 0x20#8 then .getc
  else if v = 0x21#8 then .out
  else if v = 0x22#8 then .puts
  else if v = 0x23#8 then .inChar
  else if v = 0x24#8 then .putsp
  else if v = 0x25#8 then .halt
  else .trap v

/-- R171: the row of the table that a JMP word belongs to. -/
def jmpOfBase (baseR : Reg) : Instr := if baseR = .r7 then .ret else .jmp baseR

/-- R85, R88: the instruction of a variant with its fields, once the fixed bits hold. -/
def instrOf (op : Opcode) (f : Fields) : Instr :=
  match op with
  | .br => .br f.n f.z f.p f.pcOffset9
  | .add => if f.mode5 then .addi f.reg11_9 f.reg8_6 f.imm5 else .add f.reg11_9 f.reg8_6 f.reg2_0
  | .ld => .ld f.reg11_9 f.pcOffset9
  | .st => .st f.reg11_9 f.pcOffset9
  | .jsr => if f.mode11 then .jsr f.pcOffset11 else .jsrr f.reg8_6
  | .and => if f.mode5 then .andi f.reg11_9 f.reg8_6 f.imm5 else .and f.reg11_9 f.reg8_6 f.reg2_0
  | .ldr => .ldr f.reg11_9 f.reg8_6 f.offset6
  | .str => .str f.reg11_9 f.reg8_6 f.offset6
  | .rti => .rti f.low12
  | .not => .not f.reg11_9 f.reg8_6
  | .ldi => .ldi f.reg11_9 f.pcOffset9
  | .sti => .sti f.reg11_9 f.pcOffset9
  | .jmp => jmpOfBase f.reg8_6
  | .res => .res f.low12
  | .lea => .lea f.reg11_9 f.pcOffset9
  | .trap => trapOfVector f.trapvect8

/-- R91, R92: the instruction a word stands for, or the named reason it stands for none. -/
def decode (w : Word) : Except DecodeReject Instr :=
  let d := decodeRecord w
  if d.wf then .ok (instrOf d.op d.fields) else .error (.fixedBits d.op)

/-- R85: the word of an instruction, one bit string of the list in R85 each, bit 15 first. -/
def encode : Instr → Word
  | .br n z p o => 0x0#4 ++ BitVec.ofBool n ++ BitVec.ofBool z ++ BitVec.ofBool p ++ o
  | .add d s t => 0x1#4 ++ d.bits ++ s.bits ++ 0#1 ++ 0#2 ++ t.bits
  | .addi d s i => 0x1#4 ++ d.bits ++ s.bits ++ 1#1 ++ i
  | .ld d o => 0x2#4 ++ d.bits ++ o
  | .st s o => 0x3#4 ++ s.bits ++ o
  | .jsr o => 0x4#4 ++ 1#1 ++ o
  | .jsrr b => 0x4#4 ++ 0#1 ++ 0#2 ++ b.bits ++ 0#6
  | .and d s t => 0x5#4 ++ d.bits ++ s.bits ++ 0#1 ++ 0#2 ++ t.bits
  | .andi d s i => 0x5#4 ++ d.bits ++ s.bits ++ 1#1 ++ i
  | .ldr d b o => 0x6#4 ++ d.bits ++ b.bits ++ o
  | .str s b o => 0x7#4 ++ s.bits ++ b.bits ++ o
  | .rti x => 0x8#4 ++ x
  | .not d s => 0x9#4 ++ d.bits ++ s.bits ++ 0b111111#6
  | .ldi d o => 0xA#4 ++ d.bits ++ o
  | .sti s o => 0xB#4 ++ s.bits ++ o
  | .jmp b => 0xC#4 ++ 0#3 ++ b.bits ++ 0#6
  | .ret => 0xC#4 ++ 0#3 ++ Reg.r7.bits ++ 0#6
  | .res x => 0xD#4 ++ x
  | .lea d o => 0xE#4 ++ d.bits ++ o
  | .getc => 0xF#4 ++ 0#4 ++ 0x20#8
  | .out => 0xF#4 ++ 0#4 ++ 0x21#8
  | .puts => 0xF#4 ++ 0#4 ++ 0x22#8
  | .inChar => 0xF#4 ++ 0#4 ++ 0x23#8
  | .putsp => 0xF#4 ++ 0#4 ++ 0x24#8
  | .halt => 0xF#4 ++ 0#4 ++ 0x25#8
  | .trap v => 0xF#4 ++ 0#4 ++ v

/-- R94: every instruction is one word, so the instruction's bits are the low 16 of `w`;
the bits above `nbits` are 0. -/
def tableWord (nbits w : Nat) : Word := BitVec.ofNat 16 (w % 2 ^ nbits)

/-- What this decoder reads from an instruction whose bits opcode_table.json numbers as `w`. -/
def decodeTableWord (nbits w : Nat) : Option Instr :=
  match decode (tableWord nbits w) with
  | .ok i => some i
  | .error _ => none

end Sys2Proof
end

