-- ==== Sys2Proof/Config.lean ====
section
/-! DEFINITION. What the spec leaves to the implementation or to the environment
(93_implementation_defined.md part 1): the parameter `IN_PROMPT` and the answers of the two
I/O ports. Every constant here has no body, so no proof can see a value of it. -/

namespace Sys2Proof

/-- R190: what the input port answers to one `InByte()`: a byte, or `Fail`
(the end of the input and an error of the source are both `Fail`, D19). -/
inductive InReply where
  | byte (b : Byte)
  | fail
deriving DecidableEq, Repr, Inhabited

/-- R190: what the output port answers to one `OutByte(b)`. -/
inductive OutReply where
  | ok
  | fail
deriving DecidableEq, Repr, Inhabited

/-- R7, R197, D14 (OPEN): `IN_PROMPT`, the bytes the IN trap writes before it reads.
A free value (log entry 5). -/
opaque Config.inPrompt : List Byte

/-- R190, 93_implementation_defined.md: which byte arrives, or `Fail`, is chosen by the
environment at each transaction. The n-th answer the state's own script does not give: a free
value (log entry 4). -/
opaque Config.freeInput : Nat → InReply

/-- R190: whether an output transaction fails is chosen by the environment at each transaction.
The n-th answer the state's own script does not give: a free value (log entry 4). -/
opaque Config.freeOutput : Nat → OutReply

end Sys2Proof
end

