-- ==== Sys2Proof/Machine/State.lean ====
section
/-! DEFINITION. The state of one CORE instance (10_state.md R20 to R34), the reasons a step can
stop, and the state after construction (R33). All of it is plain data. -/

namespace Sys2Proof.Machine

/-- R22: the register file, R0 to R7, 16 bits each, no aliases and none hardwired. -/
structure Regs where
  r0 : Word
  r1 : Word
  r2 : Word
  r3 : Word
  r4 : Word
  r5 : Word
  r6 : Word
  r7 : Word
deriving DecidableEq, Repr

/-- R50, R52: the memory, one pair (address, cell) for each listed address. The smallest unit an
access moves is the whole 16-bit cell, so a cell and not a byte stands beside its address
(log entry 1). The canonical form is `Memory.wf` (Ops.lean). -/
abbrev Memory := List (Nat × Word)

/-- R240: the three error kinds. -/
inductive ErrorKind where
  | outOfBounds
  | invalidOpcode
  | ioFailure
deriving DecidableEq, Repr

/-- R31: the run status. -/
inductive Status where
  | running
  | halted
  | error (k : ErrorKind)
deriving DecidableEq, Repr

/-- The MODEL'S OWN view of the environment at the two I/O ports (R20 says the port contents are no
state of the core; log entries 3 and 4). A script lists the answers of the port's next transactions
in order: `some r` is the answer `r`, `none` a transaction that is never answered (R191).
Past the end of a script the answers are the free values of Config.lean, counted by `…Free`. -/
structure Ports where
  inputScript : List (Option InReply)
  inputFree : Nat
  outputScript : List (Option OutReply)
  outputFree : Nat
  /-- R202: the bytes the output port has accepted, the oldest first. -/
  accepted : List Byte
deriving DecidableEq, Repr

/-- R20: the whole state of the CORE, and the environment's part at its ports. -/
structure State where
  /-- R22 -/
  regs : Regs
  /-- R24 -/
  pc : Word
  /-- R25: `COND[2]` = N, `COND[1]` = Z, `COND[0]` = P. -/
  cond : BitVec 3
  /-- R50 -/
  mem : Memory
  /-- R31 -/
  status : Status
  /-- the model's own field (log entries 3 and 4) -/
  ports : Ports
deriving DecidableEq, Repr

/-- Why a step has no successor. An ERROR of the spec (R240) is no fault here: R241 gives the state
it leaves, so it is a next state whose status is `error k` (log entry 2). -/
inductive Fault where
  /-- R191: an `InByte()` of GETC or IN is never answered, so the step never ends. Raised by
  `takeInput`'s users in Trap.lean. Safe: the model stops where the core waits for ever. -/
  | inputNeverAnswers
  /-- R191: an `OutByte` of OUT, PUTS, IN or PUTSP is never answered, so the step never ends. Raised
  by `putBytes`'s users in Trap.lean. Safe: the model stops where the core waits for ever. -/
  | outputNeverAnswers
deriving DecidableEq, Repr

/-- Why the model gives an instruction no meaning. -/
inductive Refusal where
  /-- Raised by an arm of `exec` that has no meaning yet. Safe: the model stops. No arm does. -/
  | notModelled (mnemonic : String)
deriving DecidableEq, Repr

/-- R33: the state after construction. Every value is the spec's but `ports`, the model's own
field: nothing is scripted and nothing has been accepted (DESIGN CHOICE, log entry 3). -/
def State.reset : State where
  regs :=
    { r0 := 0x0000, r1 := 0x0000, r2 := 0x0000, r3 := 0x0000
      r4 := 0x0000, r5 := 0x0000, r6 := 0x0000, r7 := 0x0000 }
  pc := 0x0000
  cond := 0b000
  mem := []
  status := .running
  ports :=
    { inputScript := [], inputFree := 0, outputScript := [], outputFree := 0, accepted := [] }

end Sys2Proof.Machine
end

