-- ==== Sys2Proof/Machine/Ops.lean ====
section
/-! DEFINITION. The named operations over registers, memory and the ports; the fetch phase; and
raising an error, the one operation that ends a step with `Error(k)` (60_exceptions.md R241). There
is no return from an error or a trap (R247), so no operation stands beside it. -/

namespace Sys2Proof.Machine

/-! ### Registers (R22, R23) -/

/-- R12: `x[i]`. -/
def Regs.get (rs : Regs) : Reg → Word
  | .r0 => rs.r0 | .r1 => rs.r1 | .r2 => rs.r2 | .r3 => rs.r3
  | .r4 => rs.r4 | .r5 => rs.r5 | .r6 => rs.r6 | .r7 => rs.r7

/-- R12: `x[i] <- v`. No register is hardwired (R22). -/
def Regs.set (rs : Regs) (r : Reg) (v : Word) : Regs :=
  match r with
  | .r0 => { rs with r0 := v } | .r1 => { rs with r1 := v }
  | .r2 => { rs with r2 := v } | .r3 => { rs with r3 := v }
  | .r4 => { rs with r4 := v } | .r5 => { rs with r5 := v }
  | .r6 => { rs with r6 := v } | .r7 => { rs with r7 := v }

/-- R23: `get(reg)`. -/
def State.reg (s : State) (r : Reg) : Word := s.regs.get r

/-- R23: `set(reg, value)`, which does not touch COND. -/
def State.setReg (s : State) (r : Reg) (v : Word) : State := { s with regs := s.regs.set r v }

/-- R12: `pc <- target`. -/
def State.setPc (s : State) (target : Word) : State := { s with pc := target }

def State.setCond (s : State) (c : BitVec 3) : State := { s with cond := c }

def State.setMem (s : State) (m : Memory) : State := { s with mem := m }

def State.setStatus (s : State) (st : Status) : State := { s with status := st }

def State.setPorts (s : State) (p : Ports) : State := { s with ports := p }

/-! ### Memory (20_memory.md R50 to R60) -/

/-- R33, R60: a cell nothing has written reads as 0x0000. -/
def Memory.unlisted : Word := 0x0000

/-- The canonical form: addresses strictly rising and below 65536, and no entry that says what an
unlisted address reads as. -/
def Memory.wf : Memory → Bool
  | [] => true
  | [(a, v)] => decide (a < memorySize) && decide (v ≠ Memory.unlisted)
  | (a, v) :: (b, w) :: m =>
    decide (a < b) && decide (v ≠ Memory.unlisted) && Memory.wf ((b, w) :: m)

/-- The cell at an address, with no bounds check. -/
def Memory.cellAt : Memory → Nat → Word
  | [], _ => Memory.unlisted
  | (b, v) :: m, a => if b = a then v else Memory.cellAt m a

/-- Stores a cell at an address, with no bounds check, and keeps the canonical form. -/
def Memory.setCell : Memory → Nat → Word → Memory
  | [], a, v => if v = Memory.unlisted then [] else [(a, v)]
  | (b, u) :: m, a, v =>
    if a < b then
      if v = Memory.unlisted then (b, u) :: m else (a, v) :: (b, u) :: m
    else if a = b then
      if v = Memory.unlisted then m else (a, v) :: m
    else (b, u) :: Memory.setCell m a v

/-- R51: the Memory Unit's `read(addr)`; the address port is a natural number and never wraps. -/
def Memory.read (m : Memory) (a : Nat) : Except ErrorKind Word :=
  if a < memorySize then .ok (m.cellAt a) else .error .outOfBounds

/-- R51: the Memory Unit's `write(addr, value)`. -/
def Memory.write (m : Memory) (a : Nat) (v : Word) : Except ErrorKind Memory :=
  if a < memorySize then .ok (m.setCell a v) else .error .outOfBounds

/-- R12, R54: `MemRead(a, 1)` at a 16-bit address, which is always below 65536
(`Memory.read_word` in Laws/Memory.lean). -/
def State.load (s : State) (a : Word) : Word := s.mem.cellAt a.toNat

/-- R12, R54: `MemWrite(a, 1, v)` at a 16-bit address, which is always below 65536
(`Memory.write_word` in Laws/Memory.lean). -/
def State.store (s : State) (a v : Word) : State := s.setMem (s.mem.setCell a.toNat v)

/-! ### The fetch phase (30_encoding.md R80 to R82) -/

/-- R80 (1): the word at the program counter. Fetch cannot fail (R82). -/
def State.fetchWord (s : State) : Word := s.load s.pc

/-- R80 (2), R24: the increment, modulo 2^16, before any operand computation. -/
def State.advance (s : State) : State := s.setPc (s.pc + 1)

/-- R80: a step does something only while the core is `Running` (R244). -/
def State.isRunning (s : State) : Bool := decide (s.status = .running)

/-! ### Errors (60_exceptions.md R240 to R245) -/

/-- R12, R241: `raise E`. The execute phase has written nothing, `pc` keeps the fetch increment,
and the status becomes `Error(E)`; nothing else is recorded. -/
def State.raise (s : State) (k : ErrorKind) : State := s.setStatus (.error k)

/-- R92: the execute phase of a word whose fixed bits are wrong: `InvalidOpcode`, before any operand
is read. -/
def execRejected (_why : DecodeReject) (s : State) : Host.Outcome State Fault Refusal :=
  .next (s.raise .invalidOpcode)

/-- R244: a step of a core that is not `Running` changes nothing. -/
def stepStopped (s : State) : Host.Outcome State Fault Refusal := .next s

/-- R240, D27: the code of an error kind, which no program can observe. -/
def ErrorKind.code : ErrorKind → Nat
  | .outOfBounds => 1
  | .invalidOpcode => 2
  | .ioFailure => 3

/-- R240: after an error, the address of the instruction that raised it. -/
def State.errorAddress (s : State) : Word := s.pc - 1

/-! ### The I/O ports (44_trap.md R190, R191) -/

/-- R190: `InByte()`. `none`: the transaction is never answered (R191). -/
def State.takeInput (s : State) : Option (InReply × State) :=
  match s.ports.inputScript with
  | none :: _ => none
  | some r :: rest => some (r, s.setPorts { s.ports with inputScript := rest })
  | [] => some (Config.freeInput s.ports.inputFree,
      s.setPorts { s.ports with inputFree := s.ports.inputFree + 1 })

/-- R190: the port has accepted the byte exactly when it answers `Ok`. -/
def acceptedAfter (acc : List Byte) (b : Byte) : OutReply → List Byte
  | .ok => acc ++ [b]
  | .fail => acc

/-- R190: `OutByte(b)`. `none`: the transaction is never answered (R191). -/
def State.putByte (s : State) (b : Byte) : Option (OutReply × State) :=
  match s.ports.outputScript with
  | none :: _ => none
  | some r :: rest => some (r, s.setPorts { s.ports with
      outputScript := rest, accepted := acceptedAfter s.ports.accepted b r })
  | [] =>
    let r := Config.freeOutput s.ports.outputFree
    some (r, s.setPorts { s.ports with
      outputFree := s.ports.outputFree + 1, accepted := acceptedAfter s.ports.accepted b r })

/-- `for c in chars: if OutByte(c) = Fail then …` of R196 to R198: the bytes in order, up to the
first that fails. Bytes accepted before it stay accepted (R202). -/
def State.putBytes (s : State) : List Byte → Option (OutReply × State)
  | [] => some (.ok, s)
  | b :: bs =>
    match s.putByte b with
    | none => none
    | some (.fail, s') => some (.fail, s')
    | some (.ok, s') => State.putBytes s' bs

end Sys2Proof.Machine
end

