-- ==== Sys2Proof/Machine/Flags.lean ====
section
/-! DEFINITION. The condition register (10_state.md R25 to R28): its values, the update of a
flagged write, and BR's test. -/

namespace Sys2Proof.Machine

/-- R25: NEG. -/
def condNeg : BitVec 3 := 0b100

/-- R25: ZERO. -/
def condZero : BitVec 3 := 0b010

/-- R25: POS. -/
def condPos : BitVec 3 := 0b001

/-- R26: `setcc(v)`'s new COND, from the 16-bit result alone. -/
def condOf (v : Word) : BitVec 3 :=
  if v = 0x0000 then condZero else if v.getLsbD 15 then condNeg else condPos

/-- R23, R26: `set_and_flag(reg, value)`. -/
def State.setRegFlagged (s : State) (r : Reg) (v : Word) : State :=
  (s.setReg r v).setCond (condOf v)

/-- R87: the mask bits of BR in the order of COND. -/
def condMask (n z p : Bool) : BitVec 3 := BitVec.ofBool n ++ BitVec.ofBool z ++ BitVec.ofBool p

/-- R28, R170: `(n:z:p) & COND ≠ 0b000`. -/
def State.condMatches (s : State) (n z p : Bool) : Bool := decide (condMask n z p &&& s.cond ≠ 0)

/-- R25: the values COND can hold: no flag (before the first flagged write) or exactly one. -/
def condLegal (c : BitVec 3) : Bool :=
  decide (c = 0b000) || decide (c = condNeg) || decide (c = condZero) || decide (c = condPos)

end Sys2Proof.Machine
end

