-- ==== Sys2Proof/Machine/Operands.lean ====
section
/-! DEFINITION. Extension of fields to a word (00_scope.md R10, R11) and the operand forms of
30_encoding.md R90. In every form `pc` is the incremented program counter (R81). -/

namespace Sys2Proof.Machine

/-- R10: `sext_N(v)`: with bit N-1 set, OR ones into bits N and up; otherwise unchanged. -/
def sext {n : Nat} (v : BitVec n) : Word :=
  if v.msb then v.setWidth 16 ||| (0xFFFF#16 <<< n) else v.setWidth 16

/-- R11: `zext_N(v)`: bits N and up are zero. -/
def zext {n : Nat} (v : BitVec n) : Word := v.setWidth 16

/-- R55: `v[7:0]`. -/
def lowByte (v : Word) : Byte := v.extractLsb' 0 8

/-- R55: `v[15:8]`. -/
def highByte (v : Word) : Byte := v.extractLsb' 8 8

/-- R90, R140: PC-relative, `pc + sext_N(off)`, modulo 2^16 (R54). -/
def State.pcRelative {n : Nat} (s : State) (off : BitVec n) : Word := s.pc + sext off

/-- R90, R140: base+offset, `x[BaseR] + sext6(off)`, modulo 2^16 (R54). -/
def State.basePlusOffset (s : State) (baseR : Reg) (off : BitVec 6) : Word :=
  s.reg baseR + sext off

/-- R90, R140: memory-indirect, `MemRead(pc + sext9(off), 1)`, the "double indirection". -/
def State.indirect (s : State) (off : BitVec 9) : Word := s.load (s.pcRelative off)

end Sys2Proof.Machine
end

