-- ==== Sys2Proof/Machine/Control.lean ====
section
/-! DEFINITION. The control family (43_control.md): BR, JMP, RET, JSR, JSRR. Any 16-bit word is a
legal target (R175). -/

namespace Sys2Proof.Machine

/-- R171: `pc <- x[BaseR]`. -/
def State.jumpTo (s : State) (baseR : Reg) : State := s.setPc (s.reg baseR)

/-- R172, R173: `x[7] <- link; pc <- target`, the link being the incremented `pc`. The target is
given as a value, read before R7 is written (R29, C3). -/
def State.call (s : State) (target : Word) : State := (s.setReg .r7 s.pc).setPc target

/-- R170. -/
def execBr (n z p : Bool) (off : BitVec 9) (s : State) : Host.Outcome State Fault Refusal :=
  .next (if s.condMatches n z p then s.setPc (s.pcRelative off) else s)

/-- R171. -/
def execJmp (baseR : Reg) (s : State) : Host.Outcome State Fault Refusal :=
  .next (s.jumpTo baseR)

/-- R171, R96: "an ordinary JMP with BaseR = 7". -/
def execRet (s : State) : Host.Outcome State Fault Refusal :=
  .next (s.jumpTo .r7)

/-- R172. -/
def execJsr (off : BitVec 11) (s : State) : Host.Outcome State Fault Refusal :=
  .next (s.call (s.pcRelative off))

/-- R173. -/
def execJsrr (baseR : Reg) (s : State) : Host.Outcome State Fault Refusal :=
  .next (s.call (s.reg baseR))

end Sys2Proof.Machine
end

