-- ==== Sys2Proof/Machine/LoadStore.lean ====
section
/-! DEFINITION. The memory family (42_memory_access.md): LD, LDI, LDR, LEA, ST, STI, STR. No access
can leave the address space, since every effective address is a 16-bit word (R140). -/

namespace Sys2Proof.Machine

/-- R141. -/
def execLd (dr : Reg) (off : BitVec 9) (s : State) : Host.Outcome State Fault Refusal :=
  .next (s.setRegFlagged dr (s.load (s.pcRelative off)))

/-- R142. -/
def execLdi (dr : Reg) (off : BitVec 9) (s : State) : Host.Outcome State Fault Refusal :=
  .next (s.setRegFlagged dr (s.load (s.indirect off)))

/-- R143. -/
def execLdr (dr baseR : Reg) (off : BitVec 6) (s : State) : Host.Outcome State Fault Refusal :=
  .next (s.setRegFlagged dr (s.load (s.basePlusOffset baseR off)))

/-- R144: the address itself, which also sets the flags. -/
def execLea (dr : Reg) (off : BitVec 9) (s : State) : Host.Outcome State Fault Refusal :=
  .next (s.setRegFlagged dr (s.pcRelative off))

/-- R145. -/
def execSt (sr : Reg) (off : BitVec 9) (s : State) : Host.Outcome State Fault Refusal :=
  .next (s.store (s.pcRelative off) (s.reg sr))

/-- R146: the pointer is read before the write. -/
def execSti (sr : Reg) (off : BitVec 9) (s : State) : Host.Outcome State Fault Refusal :=
  .next (s.store (s.indirect off) (s.reg sr))

/-- R147. -/
def execStr (sr baseR : Reg) (off : BitVec 6) (s : State) : Host.Outcome State Fault Refusal :=
  .next (s.store (s.basePlusOffset baseR off) (s.reg sr))

end Sys2Proof.Machine
end

