-- ==== Sys2Proof/Machine/Operate.lean ====
section
/-! DEFINITION. The operate family (41_operate.md): ADD, ADDi, AND, ANDi, NOT. Each is a flagged
write of a result computed from operands read before it (R29). -/

namespace Sys2Proof.Machine

/-- R122. -/
def execAdd (dr sr1 sr2 : Reg) (s : State) : Host.Outcome State Fault Refusal :=
  .next (s.setRegFlagged dr (s.reg sr1 + s.reg sr2))

/-- R123. -/
def execAddi (dr sr1 : Reg) (imm5 : BitVec 5) (s : State) : Host.Outcome State Fault Refusal :=
  .next (s.setRegFlagged dr (s.reg sr1 + sext imm5))

/-- R124. -/
def execAnd (dr sr1 sr2 : Reg) (s : State) : Host.Outcome State Fault Refusal :=
  .next (s.setRegFlagged dr (s.reg sr1 &&& s.reg sr2))

/-- R125. -/
def execAndi (dr sr1 : Reg) (imm5 : BitVec 5) (s : State) : Host.Outcome State Fault Refusal :=
  .next (s.setRegFlagged dr (s.reg sr1 &&& sext imm5))

/-- R126. -/
def execNot (dr sr : Reg) (s : State) : Host.Outcome State Fault Refusal :=
  .next (s.setRegFlagged dr (~~~ s.reg sr))

end Sys2Proof.Machine
end

