-- ==== Sys2Proof/Machine/Reserved.lean ====
section
/-! DEFINITION. The reserved opcodes (45_reserved.md): both raise `InvalidOpcode`, whatever their
low twelve bits; no host installs a handler (R232). -/

namespace Sys2Proof.Machine

/-- R230. -/
def execRti (_unexamined : BitVec 12) (s : State) : Host.Outcome State Fault Refusal :=
  .next (s.raise .invalidOpcode)

/-- R231. -/
def execRes (_unexamined : BitVec 12) (s : State) : Host.Outcome State Fault Refusal :=
  .next (s.raise .invalidOpcode)

end Sys2Proof.Machine
end

