-- ==== Sys2Proof/Machine/Trap.lean ====
section
/-! DEFINITION. TRAP and the Trap Dispatcher (44_trap.md). No trap writes COND, R7, `pc` or memory
(R192, C2). A primitive that fails raises its error over the registers, COND and memory it found
(R201); port transactions already made stay made (R202). -/

namespace Sys2Proof.Machine

/-! ### The primitives -/

/-- The end of GETC (R193): the byte goes to R0 with bits 15:8 zero, or the trap fails. -/
def State.finishGetc (s : State) : InReply → State
  | .byte b => s.setReg .r0 (zext b)
  | .fail => s.raise .ioFailure

/-- R193: GETC, a blocking read of one character into R0, no echo. -/
def trapGetc (s : State) : Host.Outcome State Fault Refusal :=
  match s.takeInput with
  | none => .fault .inputNeverAnswers
  | some (r, s') => .next (s'.finishGetc r)

/-- The end of a primitive whose last act is output: it goes on, or it fails. -/
def State.finishOutput (s : State) : OutReply → State
  | .ok => s
  | .fail => s.raise .ioFailure

/-- R194 to R198: the bytes in order to the output port. -/
def writeOut (bs : List Byte) (s : State) : Host.Outcome State Fault Refusal :=
  match s.putBytes bs with
  | none => .fault .outputNeverAnswers
  | some (r, s') => .next (s'.finishOutput r)

/-- R194: OUT, R0's low byte to the output port. -/
def trapOut (s : State) : Host.Outcome State Fault Refusal :=
  match s.putByte (lowByte (s.reg .r0)) with
  | none => .fault .outputNeverAnswers
  | some (r, s') => .next (s'.finishOutput r)

/-- R195, R196: PUTS's walk over the `n` cells from address `a` up to the top of memory. With no
cell left the next address is 65536, whose read raises `OutOfBounds` (R51). -/
def putsWalk (m : Memory) : (n a : Nat) → Except ErrorKind (List Byte)
  | 0, _ => .error .outOfBounds
  | n + 1, a =>
    match m.read a with
    | .error e => .error e
    | .ok w =>
      if w = 0x0000 then .ok []
      else
        match putsWalk m n (a + 1) with
        | .error e => .error e
        | .ok cs => .ok (lowByte w :: cs)

/-- R195, R198: PUTSP's walk, two characters a word, the low byte first, up to the first zero byte. -/
def putspWalk (m : Memory) : (n a : Nat) → Except ErrorKind (List Byte)
  | 0, _ => .error .outOfBounds
  | n + 1, a =>
    match m.read a with
    | .error e => .error e
    | .ok w =>
      if lowByte w = 0x00 then .ok []
      else if highByte w = 0x00 then .ok [lowByte w]
      else
        match putspWalk m n (a + 1) with
        | .error e => .error e
        | .ok cs => .ok (lowByte w :: highByte w :: cs)

/-- R195: the whole string is collected first, so an address error comes before any output. -/
def writeWalked (walked : Except ErrorKind (List Byte)) (s : State) :
    Host.Outcome State Fault Refusal :=
  match walked with
  | .error e => .next (s.raise e)
  | .ok bs => writeOut bs s

/-- R195: the number of cells from an address to the top of memory. -/
def cellsFrom (a : Word) : Nat := memorySize - a.toNat

/-- R196: PUTS. -/
def trapPuts (s : State) : Host.Outcome State Fault Refusal :=
  writeWalked (putsWalk s.mem (cellsFrom (s.reg .r0)) (s.reg .r0).toNat) s

/-- R198: PUTSP. -/
def trapPutsp (s : State) : Host.Outcome State Fault Refusal :=
  writeWalked (putspWalk s.mem (cellsFrom (s.reg .r0)) (s.reg .r0).toNat) s

/-- The end of IN (R197) once a byte has been read: the echo, and then R0. -/
def echoAndSet (b : Byte) (s : State) : Host.Outcome State Fault Refusal :=
  match s.putByte b with
  | none => .fault .outputNeverAnswers
  | some (.ok, s') => .next (s'.setReg .r0 (zext b))
  | some (.fail, s') => .next (s'.raise .ioFailure)

/-- IN after its prompt (R197): one byte, then its echo. -/
def readAndEcho (s : State) : Host.Outcome State Fault Refusal :=
  match s.takeInput with
  | none => .fault .inputNeverAnswers
  | some (.byte b, s') => echoAndSet b s'
  | some (.fail, s') => .next (s'.raise .ioFailure)

/-- R197: IN with a given prompt. R0 is written only when every stage succeeds. -/
def trapInWith (prompt : List Byte) (s : State) : Host.Outcome State Fault Refusal :=
  match s.putBytes prompt with
  | none => .fault .outputNeverAnswers
  | some (.ok, s') => readAndEcho s'
  | some (.fail, s') => .next (s'.raise .ioFailure)

/-- R197: IN, its prompt the parameter `IN_PROMPT` (D14). -/
def trapIn (s : State) : Host.Outcome State Fault Refusal := trapInWith Config.inPrompt s

/-- R200: HALT; no register, flag or cell is written and no port is used. -/
def trapHalt (s : State) : Host.Outcome State Fault Refusal := .next (s.setStatus .halted)

/-- R192: the Trap Dispatcher's case over the vector; every other vector raises `InvalidOpcode`
(R199). -/
def trapDispatch (v : BitVec 8) (s : State) : Host.Outcome State Fault Refusal :=
  if v = 0x20#8 then trapGetc s
  else if v = 0x21#8 then trapOut s
  else if v = 0x22#8 then trapPuts s
  else if v = 0x23#8 then trapIn s
  else if v = 0x24#8 then trapPutsp s
  else if v = 0x25#8 then trapHalt s
  else .next (s.raise .invalidOpcode)

/-! ### One meaning per row of the table -/

/-- R193. -/
def execGetc (s : State) : Host.Outcome State Fault Refusal := trapGetc s

/-- R194. -/
def execOut (s : State) : Host.Outcome State Fault Refusal := trapOut s

/-- R196. -/
def execPuts (s : State) : Host.Outcome State Fault Refusal := trapPuts s

/-- R197. -/
def execIn (s : State) : Host.Outcome State Fault Refusal := trapIn s

/-- R198. -/
def execPutsp (s : State) : Host.Outcome State Fault Refusal := trapPutsp s

/-- R200. -/
def execHalt (s : State) : Host.Outcome State Fault Refusal := trapHalt s

/-- R192, R199. -/
def execTrap (v : BitVec 8) (s : State) : Host.Outcome State Fault Refusal := trapDispatch v s

end Sys2Proof.Machine
end

