-- ==== Sys2Proof/Machine/Step.lean ====
section
/-! DEFINITION. One step of the Execution Engine (30_encoding.md R80), and how the host's check
places an instruction to run next. -/

namespace Sys2Proof.Machine

/-- R80: fetch, increment, decode, execute, while the core is `Running`; otherwise nothing (R244). -/
def step (s : State) : Host.Outcome State Fault Refusal :=
  if s.isRunning then
    match decode s.fetchWord with
    | .ok i => exec i s.advance
    | .error why => execRejected why s.advance
  else stepStopped s

/-- `s` with the instruction word `w` in the cell the next step fetches. The step fetches only while
the core runs, so the status is `Running` (log entry 9). -/
def State.withFetchWord (s : State) (nbits w : Nat) : State :=
  (s.store s.pc (tableWord nbits w)).setStatus .running

end Sys2Proof.Machine
end

