-- ==== Sys2Proof/Machine/Assembler.lean ====
section
/-! DEFINITION. The assembler notation (30_encoding.md R95, R96). It is syntax only and no part of
the machine (D24): how a label becomes an offset, what the directives put where, and how an
instruction is written. -/

namespace Sys2Proof.Machine

/-- R95: a PC-relative operand written as a label is `label - (address of the instruction + 1)`,
"which must fit the field's range": `none` when it does not. -/
def labelOffset (n : Nat) (label addr : Word) : Option (BitVec n) :=
  let d := label - (addr + 1)
  if sext (d.setWidth n) = d then some (d.setWidth n) else none

/-- R95: what a source line puts into the program after `.ORIG` and before `.END`. -/
inductive Item where
  | code (i : Instr)
  /-- `.FILL value` -/
  | fill (v : Word)
  /-- `.BLKW n`: room for n words; R95 names no contents, so it puts none. -/
  | blkw (n : Nat)
  /-- `.STRINGZ "text"`: one character per word, then a 0x0000 word. -/
  | stringz (text : List Byte)
deriving DecidableEq, Repr

/-- R95: the cells an item fills from an address on, and the address after it. -/
def Item.place (a : Nat) : Item → List (Nat × Word) × Nat
  | .code i => ([(a, encode i)], a + 1)
  | .fill v => ([(a, v)], a + 1)
  | .blkw n => ([], a + n)
  | .stringz text =>
    ((text.map zext ++ [0x0000]).zipIdx.map fun (w, k) => (a + k, w), a + text.length + 1)

/-- R95: the cells of a program whose `.ORIG` is `a`. -/
def placeAll (a : Nat) : List Item → List (Nat × Word)
  | [] => []
  | item :: items => (item.place a).1 ++ placeAll (item.place a).2 items

/-- R95: registers are R0..R7. -/
def Reg.text : Reg → String
  | .r0 => "R0" | .r1 => "R1" | .r2 => "R2" | .r3 => "R3"
  | .r4 => "R4" | .r5 => "R5" | .r6 => "R6" | .r7 => "R7"

/-- R95: an immediate is # followed by a signed decimal. -/
def immText {n : Nat} (v : BitVec n) : String := "#" ++ toString v.toInt

/-- R95: BR with a non-empty subset of n, z, p, in that order. -/
def brText (n z p : Bool) : String :=
  "BR" ++ (if n then "n" else "") ++ (if z then "z" else "") ++ (if p then "p" else "")

/-- R95, R96: an instruction as it is written, with a PC-relative operand as its offset. `none`: R95
gives no notation (a BR with an empty mask, RTI and RES). -/
def instrText : Instr → Option String
  | .br n z p o => if n || z || p then some (brText n z p ++ " " ++ immText o) else none
  | .add d s t => some ("ADD " ++ Reg.text d ++ ", " ++ Reg.text s ++ ", " ++ Reg.text t)
  | .addi d s i => some ("ADD " ++ Reg.text d ++ ", " ++ Reg.text s ++ ", " ++ immText i)
  | .ld d o => some ("LD " ++ Reg.text d ++ ", " ++ immText o)
  | .st s o => some ("ST " ++ Reg.text s ++ ", " ++ immText o)
  | .jsr o => some ("JSR " ++ immText o)
  | .jsrr b => some ("JSRR " ++ Reg.text b)
  | .and d s t => some ("AND " ++ Reg.text d ++ ", " ++ Reg.text s ++ ", " ++ Reg.text t)
  | .andi d s i => some ("AND " ++ Reg.text d ++ ", " ++ Reg.text s ++ ", " ++ immText i)
  | .ldr d b o => some ("LDR " ++ Reg.text d ++ ", " ++ Reg.text b ++ ", " ++ immText o)
  | .str s b o => some ("STR " ++ Reg.text s ++ ", " ++ Reg.text b ++ ", " ++ immText o)
  | .rti _ => none
  | .not d s => some ("NOT " ++ Reg.text d ++ ", " ++ Reg.text s)
  | .ldi d o => some ("LDI " ++ Reg.text d ++ ", " ++ immText o)
  | .sti s o => some ("STI " ++ Reg.text s ++ ", " ++ immText o)
  | .jmp b => some ("JMP " ++ Reg.text b)
  | .ret => some "RET"
  | .res _ => none
  | .lea d o => some ("LEA " ++ Reg.text d ++ ", " ++ immText o)
  | .getc => some "GETC"
  | .out => some "OUT"
  | .puts => some "PUTS"
  | .inChar => some "IN"
  | .putsp => some "PUTSP"
  | .halt => some "HALT"
  | .trap v => some ("TRAP #" ++ toString v.toNat)

end Sys2Proof.Machine
end

