-- ==== Sys2Proof/Machine/HostCalls.lean ====
section
/-! DEFINITION. The host control interface (70_reset_and_hazards.md R280 to R290): what a host may
do to the core between steps, and what it gets back. -/

namespace Sys2Proof.Machine

/-- R280: `construct()`. -/
def construct : State := State.reset

/-- R282: the cells of an image, `MEM[o + i] <- words[i]`. -/
def copyWords (m : Memory) (o : Nat) : List Word → Memory
  | [] => m
  | w :: ws => copyWords (m.setCell o w) (o + 1) ws

/-- R282: `load_image(words, origin)`. Out of range it writes no cell and the error goes to the host
alone (R286). -/
def loadImage (words : List Word) (origin : Nat) (s : State) : Except ErrorKind State :=
  if origin + words.length ≤ memorySize then .ok (s.setMem (copyWords s.mem origin words))
  else .error .outOfBounds

/-- R283: `set_pc(addr)`. Out of range `pc` is unchanged and the error goes to the host alone. -/
def hostSetPc (addr : Nat) (s : State) : Except ErrorKind State :=
  if addr < memorySize then .ok (s.setPc (BitVec.ofNat 16 addr)) else .error .outOfBounds

/-- R285: what `step()` and `run()` return. -/
inductive StepResult where
  | continue
  | halted
  | error (k : ErrorKind)
deriving DecidableEq, Repr

/-- R31: the result a step with this status behind it returns. -/
def resultOf : Status → StepResult
  | .running => .continue
  | .halted => .halted
  | .error k => .error k

/-- R285: `step()` with the result the host gets. -/
def hostStep (s : State) : Host.Outcome (StepResult × State) Fault Refusal :=
  match step s with
  | .next t => .next (resultOf t.status, t)
  | .fault f => .fault f
  | .refused r => .refused r

/-- R83, R285: `run()`, at most `fuel` steps of it: `none` when none of them ended the run. -/
def hostRun : (fuel : Nat) → State → Host.Outcome (Option (StepResult × State)) Fault Refusal
  | 0, _ => .next none
  | fuel + 1, s =>
    match hostStep s with
    | .next (.continue, t) => hostRun fuel t
    | .next (r, t) => .next (some (r, t))
    | .fault f => .fault f
    | .refused r => .refused r

/-- R287: what the snapshot shows. -/
structure Snapshot where
  regs : Regs
  pc : Word
  cond : BitVec 3
  mem : Memory
  status : Status
deriving DecidableEq, Repr

/-- R287: the read-only snapshot, between steps. -/
def snapshot (s : State) : Snapshot where
  regs := s.regs
  pc := s.pc
  cond := s.cond
  mem := s.mem
  status := s.status

/-- R284: big-endian 16-bit words; `none` for an odd number of bytes, which the spec does not
define (N19, log entry 8). -/
def wordsOfBytes : List Byte → Option (List Word)
  | [] => some []
  | [_] => none
  | hi :: lo :: rest => (wordsOfBytes rest).map ((hi ++ lo) :: ·)

/-- R284: an image file's origin and words; `none` for an image with no first word (N19). -/
def parseImage (bytes : List Byte) : Option (Word × List Word) :=
  match wordsOfBytes bytes with
  | some (origin :: words) => some (origin, words)
  | some [] => none
  | none => none

/-- R290: construct, load an image file's bytes, and set the program counter to its origin. -/
def boot (bytes : List Byte) : Option (Except ErrorKind State) :=
  (parseImage bytes).map fun (origin, words) =>
    match loadImage words origin.toNat construct with
    | .error e => .error e
    | .ok s => hostSetPc origin.toNat s

end Sys2Proof.Machine
end

