-- ==== Sys2Proof/Safety.lean ====
section
/-! DEFINITION. The terms the statements use: what every state of a run keeps, what a safe outcome
is, what an instruction may write, and the shapes of next state the rules give, each with its
frame. -/

namespace Sys2Proof.Machine

/-! ### Invariants -/

/-- The memory is in its canonical form, so all its addresses are below 65536 (R50), and COND holds
no flag or exactly one (R25). -/
def State.Inv (s : State) : Prop := s.mem.wf = true ∧ condLegal s.cond = true

/-- COND after a flagged write: "exactly one of 0b100 (NEG), 0b010 (ZERO), 0b001 (POS)" (R25). -/
def oneFlag (c : BitVec 3) : Prop := c = 0b100 ∨ c = 0b010 ∨ c = 0b001

/-- Every transaction the environment's scripts list is answered (R191). -/
def State.answered (s : State) : Prop :=
  none ∉ s.ports.inputScript ∧ none ∉ s.ports.outputScript

/-! ### What an instruction may write -/

/-- R27: the destination of an instruction that writes through `set_and_flag`. -/
def flaggedDest : Instr → Option Reg
  | .add dr _ _ => some dr
  | .addi dr _ _ => some dr
  | .and dr _ _ => some dr
  | .andi dr _ _ => some dr
  | .not dr _ => some dr
  | .ld dr _ => some dr
  | .ldi dr _ => some dr
  | .ldr dr _ _ => some dr
  | .lea dr _ => some dr
  | .br _ _ _ _ => none
  | .st _ _ => none
  | .jsr _ => none
  | .jsrr _ => none
  | .str _ _ _ => none
  | .rti _ => none
  | .sti _ _ => none
  | .jmp _ => none
  | .ret => none
  | .res _ => none
  | .getc => none
  | .out => none
  | .puts => none
  | .inChar => none
  | .putsp => none
  | .halt => none
  | .trap _ => none

/-- The instructions that write a register through `set`: the link of JSR and JSRR (R172, R173) and
the byte of GETC and IN (R193, R197), under either of their table rows. -/
def plainDest : Instr → Option Reg
  | .jsr _ => some .r7
  | .jsrr _ => some .r7
  | .getc => some .r0
  | .inChar => some .r0
  | .trap v => if v = 0x20#8 ∨ v = 0x23#8 then some .r0 else none
  | .add _ _ _ => none
  | .addi _ _ _ => none
  | .and _ _ _ => none
  | .andi _ _ _ => none
  | .not _ _ => none
  | .ld _ _ => none
  | .ldi _ _ => none
  | .ldr _ _ _ => none
  | .lea _ _ => none
  | .br _ _ _ _ => none
  | .st _ _ => none
  | .str _ _ _ => none
  | .rti _ => none
  | .sti _ _ => none
  | .jmp _ => none
  | .ret => none
  | .res _ => none
  | .out => none
  | .puts => none
  | .putsp => none
  | .halt => none

/-- R56: the address a store writes and the register it stores, in the state after the fetch
increment. -/
def storeTarget (s : State) : Instr → Option (Word × Reg)
  | .st sr off => some (s.pcRelative off, sr)
  | .sti sr off => some (s.indirect off, sr)
  | .str sr baseR off => some (s.basePlusOffset baseR off, sr)
  | .add _ _ _ => none
  | .addi _ _ _ => none
  | .and _ _ _ => none
  | .andi _ _ _ => none
  | .not _ _ => none
  | .ld _ _ => none
  | .ldi _ _ => none
  | .ldr _ _ _ => none
  | .lea _ _ => none
  | .br _ _ _ _ => none
  | .jsr _ => none
  | .jsrr _ => none
  | .rti _ => none
  | .jmp _ => none
  | .ret => none
  | .res _ => none
  | .getc => none
  | .out => none
  | .puts => none
  | .inChar => none
  | .putsp => none
  | .halt => none
  | .trap _ => none

/-- R24: the instructions that write `pc` other than by the increment. -/
def writesPc : Instr → Bool
  | .br _ _ _ _ => true
  | .jmp _ => true
  | .ret => true
  | .jsr _ => true
  | .jsrr _ => true
  | .add _ _ _ => false
  | .addi _ _ _ => false
  | .and _ _ _ => false
  | .andi _ _ _ => false
  | .not _ _ => false
  | .ld _ _ => false
  | .ldi _ _ => false
  | .ldr _ _ _ => false
  | .lea _ _ => false
  | .st _ _ => false
  | .sti _ _ => false
  | .str _ _ _ => false
  | .rti _ => false
  | .res _ => false
  | .getc => false
  | .out => false
  | .puts => false
  | .inChar => false
  | .putsp => false
  | .halt => false
  | .trap _ => false

/-- The opcodes that can end a step with another status: TRAP (R192) and the reserved ones
(R230, R231). -/
def isTrapOrReserved : Instr → Bool
  | .getc => true
  | .out => true
  | .puts => true
  | .inChar => true
  | .putsp => true
  | .halt => true
  | .trap _ => true
  | .rti _ => true
  | .res _ => true
  | .br _ _ _ _ => false
  | .jmp _ => false
  | .ret => false
  | .jsr _ => false
  | .jsrr _ => false
  | .add _ _ _ => false
  | .addi _ _ _ => false
  | .and _ _ _ => false
  | .andi _ _ _ => false
  | .not _ _ => false
  | .ld _ _ => false
  | .ldi _ _ => false
  | .ldr _ _ _ => false
  | .lea _ _ => false
  | .st _ _ => false
  | .sti _ _ => false
  | .str _ _ _ => false

/-- R240: the vector-level raisers of each error kind (R193 to R199). -/
def vectorMayRaise (v : BitVec 8) : ErrorKind → Bool
  | .outOfBounds => decide (v = 0x22#8) || decide (v = 0x24#8)
  | .invalidOpcode => decide (v < 0x20#8) || decide (0x25#8 < v)
  | .ioFailure => decide (0x20#8 ≤ v) && decide (v ≤ 0x24#8)

/-- R240: the instructions that can raise each error kind. The reserved opcodes raise
`InvalidOpcode` (R230, R231), a TRAP what its vector's primitive raises. -/
def mayRaise (i : Instr) (k : ErrorKind) : Bool :=
  match i with
  | .rti _ => decide (k = .invalidOpcode)
  | .res _ => decide (k = .invalidOpcode)
  | .getc => vectorMayRaise 0x20 k
  | .out => vectorMayRaise 0x21 k
  | .puts => vectorMayRaise 0x22 k
  | .inChar => vectorMayRaise 0x23 k
  | .putsp => vectorMayRaise 0x24 k
  | .halt => vectorMayRaise 0x25 k
  | .trap v => vectorMayRaise v k
  | .br _ _ _ _ => false
  | .jmp _ => false
  | .ret => false
  | .jsr _ => false
  | .jsrr _ => false
  | .add _ _ _ => false
  | .addi _ _ _ => false
  | .and _ _ _ => false
  | .andi _ _ _ => false
  | .not _ _ => false
  | .ld _ _ => false
  | .ldi _ _ => false
  | .ldr _ _ _ => false
  | .lea _ _ => false
  | .st _ _ => false
  | .sti _ _ => false
  | .str _ _ _ => false

/-! ### The shapes of next state -/

/-- Everything but the registers is as before. -/
def State.sameButRegs (s t : State) : Prop :=
  t.pc = s.pc ∧ t.cond = s.cond ∧ t.mem = s.mem ∧ t.status = s.status ∧ t.ports = s.ports

/-- R26: `dr` holds `v` and COND its flag, and nothing else has changed. -/
def FlaggedWrite (s t : State) (dr : Reg) (v : Word) : Prop :=
  t.reg dr = v ∧ t.cond = condOf v ∧ (∀ r, r ≠ dr → t.reg r = s.reg r) ∧
    t.pc = s.pc ∧ t.mem = s.mem ∧ t.status = s.status ∧ t.ports = s.ports

/-- R12: the cell at `a` holds `v`, every other cell and all other state is as before. -/
def Stored (s t : State) (a v : Word) : Prop :=
  t.load a = v ∧ (∀ b : Nat, b ≠ a.toNat → t.mem.cellAt b = s.mem.cellAt b) ∧
    t.regs = s.regs ∧ t.pc = s.pc ∧ t.cond = s.cond ∧ t.status = s.status ∧ t.ports = s.ports

/-- `pc` holds the target and nothing else has changed. -/
def JumpedTo (s t : State) (target : Word) : Prop :=
  t.pc = target ∧ t.regs = s.regs ∧ t.cond = s.cond ∧ t.mem = s.mem ∧ t.status = s.status ∧
    t.ports = s.ports

/-- R172, R173: R7 holds the link, `pc` the target, and nothing else has changed. -/
def Called (s t : State) (target : Word) : Prop :=
  t.reg .r7 = s.pc ∧ t.pc = target ∧ (∀ r, r ≠ .r7 → t.reg r = s.reg r) ∧ t.cond = s.cond ∧
    t.mem = s.mem ∧ t.status = s.status ∧ t.ports = s.ports

/-- What a program can see (registers, `pc`, COND, memory) is the same. -/
def State.sameData (s t : State) : Prop :=
  t.regs = s.regs ∧ t.pc = s.pc ∧ t.cond = s.cond ∧ t.mem = s.mem

/-- R241: the error is recorded in the status and nothing else has changed. -/
def Raised (s t : State) (k : ErrorKind) : Prop :=
  t.status = .error k ∧ s.sameData t ∧ t.ports = s.ports

/-- R201: the primitive failed; registers, `pc`, COND and memory are as it found them. -/
def Failed (s t : State) (k : ErrorKind) : Prop := t.status = .error k ∧ s.sameData t

/-- R193, R197: R0 holds the byte with bits 15:8 zero; no other register, `pc`, COND, cell or status
has changed. -/
def ByteInR0 (s t : State) (b : Byte) : Prop :=
  t.reg .r0 = zext b ∧ (∀ r, r ≠ .r0 → t.reg r = s.reg r) ∧ t.pc = s.pc ∧ t.cond = s.cond ∧
    t.mem = s.mem ∧ t.status = s.status

/-! ### Fetching -/

/-- The next step runs and fetches this word. -/
def Fetches (s : State) (w : Word) : Prop := s.status = .running ∧ s.fetchWord = w

/-- R92, as the rule lists it: a bit that R85 shows as a digit does not hold that digit. -/
def fixedBitsWrong (w : Word) : Prop :=
  ((w.extractLsb' 12 4 = 0x1 ∨ w.extractLsb' 12 4 = 0x5) ∧ w.getLsbD 5 = false ∧
      w.extractLsb' 3 2 ≠ 0b00) ∨
    (w.extractLsb' 12 4 = 0x9 ∧ w.extractLsb' 0 6 ≠ 0b111111) ∨
    (w.extractLsb' 12 4 = 0x4 ∧ w.getLsbD 11 = false ∧
      (w.extractLsb' 9 2 ≠ 0b00 ∨ w.extractLsb' 0 6 ≠ 0b000000)) ∨
    (w.extractLsb' 12 4 = 0xC ∧ (w.extractLsb' 9 3 ≠ 0b000 ∨ w.extractLsb' 0 6 ≠ 0b000000)) ∨
    (w.extractLsb' 12 4 = 0xF ∧ w.extractLsb' 8 4 ≠ 0b0000)

/-- opcode_table.json: the mask and the match of each row, in the table's order. -/
def opcodeTable : List (Word × Word) :=
  [(0xF000, 0x0000), (0xF038, 0x1000), (0xF020, 0x1020), (0xF000, 0x2000), (0xF000, 0x3000),
    (0xF800, 0x4800), (0xFE3F, 0x4000), (0xF038, 0x5000), (0xF020, 0x5020), (0xF000, 0x6000),
    (0xF000, 0x7000), (0xF000, 0x8000), (0xF03F, 0x903F), (0xF000, 0xA000), (0xF000, 0xB000),
    (0xFE3F, 0xC000), (0xFFFF, 0xC1C0), (0xF000, 0xD000), (0xF000, 0xE000), (0xFFFF, 0xF020),
    (0xFFFF, 0xF021), (0xFFFF, 0xF022), (0xFFFF, 0xF023), (0xFFFF, 0xF024), (0xFFFF, 0xF025),
    (0xFF00, 0xF000)]

/-! ### The ports -/

/-- R190, R191: the answer the input port's next transaction gets, `none` when it is never answered:
from the script or, past its end, the free value (log entry 4). -/
def Ports.inputAnswer (p : Ports) : Option InReply :=
  p.inputScript.headD (some (Config.freeInput p.inputFree))

/-- The ports after one answered input transaction: the script is one answer shorter or, past its
end, one free answer more has been taken (log entry 4). -/
def Ports.afterInput (p : Ports) : Ports :=
  { p with
    inputScript := p.inputScript.tail
    inputFree := if p.inputScript = [] then p.inputFree + 1 else p.inputFree }

/-- R190, R191: the answer the output port's k-th transaction from here gets (k from 0), `none` when
it is never answered: from the script or, past its end, a free value (log entry 4). -/
def Ports.outputAnswer (p : Ports) (k : Nat) : Option OutReply :=
  p.outputScript.getD k (some (Config.freeOutput (p.outputFree + (k - p.outputScript.length))))

/-- R190: the output port answers `Ok` to each of its next `n` transactions. -/
def Ports.accepts (p : Ports) (n : Nat) : Prop := ∀ k, k < n → p.outputAnswer k = some .ok

/-- The ports after `n` answered output transactions in which the bytes `bs` were accepted: the
script is `n` answers shorter and what it did not give was taken from the free answers
(log entry 4). -/
def Ports.afterOutputs (p : Ports) (n : Nat) (bs : List Byte) : Ports :=
  { p with
    outputScript := p.outputScript.drop n
    outputFree := p.outputFree + (n - p.outputScript.length)
    accepted := p.accepted ++ bs }

/-- R196: the words from `a` hold a string of `n` characters, terminated below 65536. -/
def putsString (m : Memory) (a n : Nat) : Prop :=
  a + n < 65536 ∧ (∀ k, k < n → m.cellAt (a + k) ≠ 0x0000) ∧ m.cellAt (a + n) = 0x0000

/-- R196: one character per word, the low byte. -/
def putsBytes (m : Memory) (a n : Nat) : List Byte :=
  (List.range n).map fun k => lowByte (m.cellAt (a + k))

/-- R198: "low byte of MEM[R0], high byte of MEM[R0], low byte of MEM[R0+1], ...". -/
def putspByte (m : Memory) (a j : Nat) : Byte :=
  if j % 2 = 0 then lowByte (m.cellAt (a + j / 2)) else highByte (m.cellAt (a + j / 2))

/-- R198: the packed string from `a` has `n` characters; "it ends at its first zero byte". -/
def putspString (m : Memory) (a n : Nat) : Prop :=
  a + n / 2 < 65536 ∧ (∀ j, j < n → putspByte m a j ≠ 0x00) ∧ putspByte m a n = 0x00

/-- R198: the characters of the packed string. -/
def putspBytes (m : Memory) (a n : Nat) : List Byte := (List.range n).map (putspByte m a)

end Sys2Proof.Machine
end

