-- ==== Sys2Proof/Certificates/Slice0/Obligations.lean ====
section
/-! DEFINITION. The statements for the provers, from the spec's numbered rules. A statement about an
instruction concludes that `exec` answers a next state and says all of that state, so it is at once
its completion and its frame. Statements that store take the canonical form of the memory (log
entry 1) as a premise; `StepKeepsTheInvariant` states that every step keeps it. -/

open Sys2Proof Sys2Proof.Machine

/-! ### Encoding -/

/-- R84 to R94, over the field positions of D2: no bit of an encoding is dropped, whatever the
operands. -/
def Obligations.DecodeOfEncodeIsTheInstruction : Prop :=
  ∀ i : Instr, i.wellFormed = true → decode (encode i) = .ok i

/-- R91, R94, over the field positions of D2: a word has one reading, which is well-formed and gives
the word back. -/
def Obligations.EncodeOfDecodeIsTheWord : Prop :=
  ∀ (w : Word) (i : Instr), decode w = .ok i → i.wellFormed = true ∧ encode i = w

/-- opcode_table.json: the words that decode are exactly those some row of the table matches. -/
def Obligations.DecodeAcceptsExactlyTheTable : Prop :=
  ∀ w : Word, (∃ i, decode w = .ok i) ↔ ∃ row ∈ opcodeTable, w &&& row.1 = row.2

/-- R97 (an inference of the spec): the source's own instruction texts as words; that the word of
`JMP R7` decodes to the table's row RET is the model's choice (log entry 6), and its execution is
that of `JMP R7`. -/
def Obligations.WordsOfTheSourceDecode : Prop :=
  decode 0b0001000001111101 = .ok (.addi .r0 .r1 0b11101) ∧ (0b0001000001111101 : Word) = 0x107D ∧
    decode 0b1111000000100101 = .ok .halt ∧ (0b1111000000100101 : Word) = 0xF025 ∧
    decode 0b1100000111000000 = .ok .ret ∧ (0b1100000111000000 : Word) = 0xC1C0 ∧
    ∀ s, exec .ret s = exec (.jmp .r7) s

/-- R92 (the spec's decision D3): a word with a wrong fixed bit, and no other word, is rejected by
the decoder, and a step that fetches it raises `InvalidOpcode` with nothing else written. -/
def Obligations.WrongFixedBitsRaiseInvalidOpcode : Prop :=
  (∀ w : Word, (∃ i, decode w = .ok i) ↔ ¬ fixedBitsWrong w) ∧
    ∀ (s : State) (w : Word), Fetches s w → fixedBitsWrong w →
      ∃ t, step s = .next t ∧ Raised s.advance t .invalidOpcode

/-- R93 (the spec's decision D8 for the vectors): a step ends with `InvalidOpcode` exactly on the
words of RTI and RES, on words with a wrong fixed bit and on TRAP words whose vector is outside
0x20..0x25; the words 0x0000..0x01FF change only `pc`. -/
def Obligations.InvalidOpcodeExactlyOnReservedAndIllegalWords : Prop :=
  (∀ (s : State) (w : Word), Fetches s w →
    ((∃ t, step s = .next t ∧ t.status = .error .invalidOpcode) ↔
      (w.extractLsb' 12 4 = 0x8 ∨ w.extractLsb' 12 4 = 0xD ∨ fixedBitsWrong w ∨
        (w.extractLsb' 8 8 = 0xF0 ∧ (w.extractLsb' 0 8 < 0x20 ∨ 0x25 < w.extractLsb' 0 8))))) ∧
    ∀ (s : State) (w : Word), Fetches s w → w ≤ 0x01FF → step s = .next s.advance

/-- R10, and R11 (the spec's decision D13): extension keeps the field's value, signed for `sext`,
unsigned for `zext`. -/
def Obligations.ExtensionKeepsTheValue : Prop :=
  ∀ (n : Nat) (v : BitVec n), n ≤ 16 → (sext v).toInt = v.toInt ∧ (zext v).toNat = v.toNat

/-! ### The step -/

/-- R80: while the core runs, a step is the execute phase of the word at `pc`, over the state whose
`pc` is one more and which is otherwise the same. -/
def Obligations.StepRunsTheDecodedInstruction : Prop :=
  ∀ (s : State) (i : Instr), s.status = .running → decode (s.load s.pc) = .ok i →
    step s = exec i s.advance ∧ s.advance.pc = s.pc + 1 ∧ s.advance.regs = s.regs ∧
      s.advance.cond = s.cond ∧ s.advance.mem = s.mem ∧ s.advance.status = s.status ∧
      s.advance.ports = s.ports

/-- R51, R82 (the spec's decision D6 and its inference): the Memory Unit reads and writes below
65536, and at 65536 and above fails and never wraps; so it answers every fetch. The write's premise
is the model's canonical form (log entry 1). -/
def Obligations.MemoryUnitChecksBounds : Prop :=
  (∀ (m : Memory) (a : Nat) (v : Word),
    (65536 ≤ a → m.read a = .error .outOfBounds ∧ m.write a v = .error .outOfBounds) ∧
    (a < 65536 → (∃ w, m.read a = .ok w) ∧
      (m.wf = true → ∃ m', m.write a v = .ok m' ∧ m'.read a = .ok v ∧
        ∀ b, b ≠ a → m'.read b = m.read b))) ∧
  ∀ s : State, s.mem.read s.pc.toNat = .ok s.fetchWord

/-- The model's own canonical form (log entry 1): two canonical memories that read alike at every
address are the same list. -/
def Obligations.MemoriesThatReadAlikeAreEqual : Prop :=
  ∀ m m' : Memory, m.wf = true → m'.wf = true → (∀ a, m.cellAt a = m'.cellAt a) → m = m'

/-- R33, R280: every value the spec gives for reset (D4 and D12 are its decisions on COND and the
status). -/
def Obligations.ResetState : Prop :=
  (∀ r, State.reset.reg r = 0x0000) ∧ State.reset.pc = 0x0000 ∧ State.reset.cond = 0b000 ∧
    (∀ a : Nat, State.reset.mem.cellAt a = 0x0000) ∧ State.reset.status = .running ∧
    construct = State.reset

/-- The invariant holds at reset: COND has no flag (R25, R33), and the memory has the model's own
canonical form (log entry 1). -/
def Obligations.ResetMeetsTheInvariant : Prop := State.reset.Inv

/-- R25 (D4's encoding) for COND, and the model's own canonical form of the memory (log entry 1),
whose addresses are below 65536 (R50): from every state that meets the invariant, a step leads to
one that meets it. -/
def Obligations.StepKeepsTheInvariant : Prop :=
  ∀ s t : State, s.Inv → step s = .next t → t.Inv

/-- R25 (D4's encoding): once a flag is set exactly one stays set, and after a flagged write one is
set. -/
def Obligations.ExactlyOneFlagAfterAFlaggedWrite : Prop :=
  (∀ s t : State, oneFlag s.cond → step s = .next t → oneFlag t.cond) ∧
    (∀ (s : State) (r : Reg) (v : Word), oneFlag (s.setRegFlagged r v).cond) ∧
    ∀ s t : State, condLegal s.cond = true → step s = .next t → condLegal t.cond = true

/-- R191: when every listed transaction is answered, a step has a successor, and the transactions
still listed are answered. That a transaction past the list is answered is the model's choice (log
entry 4). -/
def Obligations.AnsweredStepsHaveASuccessor : Prop :=
  ∀ s : State, s.answered → ∃ t, step s = .next t ∧ t.answered

/-- R191, with log entries 4 and 12: the step of GETC, OUT, PUTS, PUTSP or IN whose next due
`InByte()` or `OutByte` is never answered has no successor, at every transaction of the primitive; a
step without a successor has an unanswered transaction in its script; and no step is refused. -/
def Obligations.OnlyAnUnansweredTransactionEndsNoStep : Prop :=
  (∀ s : State, (∀ r, step s ≠ .refused r) ∧
    (step s = .fault .inputNeverAnswers → none ∈ s.ports.inputScript) ∧
    (step s = .fault .outputNeverAnswers → none ∈ s.ports.outputScript)) ∧
  (∀ s : State, s.ports.inputAnswer = none → exec .getc s = .fault .inputNeverAnswers) ∧
  (∀ s : State, s.ports.outputAnswer 0 = none → exec .out s = .fault .outputNeverAnswers) ∧
  (∀ (s : State) (n k : Nat), putsString s.mem (s.reg .r0).toNat n → k < n →
    s.ports.accepts k → s.ports.outputAnswer k = none →
      exec .puts s = .fault .outputNeverAnswers) ∧
  (∀ (s : State) (n k : Nat), putspString s.mem (s.reg .r0).toNat n → k < n →
    s.ports.accepts k → s.ports.outputAnswer k = none →
      exec .putsp s = .fault .outputNeverAnswers) ∧
  (∀ s : State, exec .inChar s = trapInWith Config.inPrompt s) ∧
  (∀ (prompt : List Byte) (s : State) (k : Nat), k < prompt.length →
    s.ports.accepts k → s.ports.outputAnswer k = none →
      trapInWith prompt s = .fault .outputNeverAnswers) ∧
  (∀ (prompt : List Byte) (s : State), s.ports.accepts prompt.length →
    s.ports.inputAnswer = none → trapInWith prompt s = .fault .inputNeverAnswers) ∧
  ∀ (prompt : List Byte) (s : State) (b : Byte), s.ports.accepts prompt.length →
    s.ports.inputAnswer = some (.byte b) → s.ports.outputAnswer prompt.length = none →
      trapInWith prompt s = .fault .outputNeverAnswers

/-! ### Status and errors -/

/-- R244 (the spec's decision D12): `Halted` and `Error(k)` are sticky: a step returns the status
again and changes nothing, and `load_image` and `set_pc` do not change it. -/
def Obligations.HaltedAndErrorAreSticky : Prop :=
  ∀ s : State, s.status ≠ .running →
    step s = .next s ∧ hostStep s = .next (resultOf s.status, s) ∧
      resultOf s.status ≠ .continue ∧
      (∀ ws o t, loadImage ws o s = .ok t → t.status = s.status) ∧
      ∀ a t, hostSetPc a s = .ok t → t.status = s.status

/-- R241 (the spec's decision D11): the state after a step that raises error k. That `pc - 1` is
then the instruction's address is R240's inference from it. -/
def Obligations.ErrorLeavesTheStateAfterTheFetch : Prop :=
  ∀ (s t : State) (k : ErrorKind), s.status = .running → step s = .next t →
    t.status = .error k →
      t.pc = s.pc + 1 ∧ t.regs = s.regs ∧ t.cond = s.cond ∧ t.mem = s.mem ∧
        hostStep s = .next (.error k, t) ∧ t.errorAddress = s.pc

/-- R240, R83: which words end a step with `OutOfBounds`, with `IOFailure` and with `Halted`. -/
def Obligations.OtherStatusesComeFromTheirTraps : Prop :=
  ∀ (s t : State) (w : Word), Fetches s w → step s = .next t →
    (t.status = .error .outOfBounds → w = 0xF022 ∨ w = 0xF024) ∧
    (t.status = .error .ioFailure →
      w = 0xF020 ∨ w = 0xF021 ∨ w = 0xF022 ∨ w = 0xF023 ∨ w = 0xF024) ∧
    (t.status = .halted ↔ w = 0xF025)

/-- R83, R285: `run()` ends only with `Halted` or `Error`, and the result is the final status. -/
def Obligations.RunEndsHaltedOrInError : Prop :=
  ∀ (fuel : Nat) (s t : State) (r : StepResult), hostRun fuel s = .next (some (r, t)) →
    r = resultOf t.status ∧ (t.status = .halted ∨ ∃ k, t.status = .error k)

/-- R281 (an inference of the spec): with nothing loaded, a run from reset cycles through memory for
ever. -/
def Obligations.EmptyMemoryRunCycles : Prop :=
  ∀ n : Nat, Host.Core.run Sys2Proof.core n State.reset =
    .next (State.reset.setPc (BitVec.ofNat 16 n))

/-! ### Frames over the whole instruction set -/

/-- R22, R27: a register changes only where the instruction's rule writes it. -/
def Obligations.RegistersChangeOnlyAtTheDestination : Prop :=
  ∀ (i : Instr) (s t : State) (r : Reg), exec i s = .next t →
    flaggedDest i ≠ some r → plainDest i ≠ some r → t.reg r = s.reg r

/-- R27: exactly the flagged writers change COND, each from the value in its destination;
`load_image` and `set_pc` do not. -/
def Obligations.OnlyFlaggedWritersChangeCond : Prop :=
  (∀ (i : Instr) (s t : State), exec i s = .next t →
    (∀ dr, flaggedDest i = some dr → t.cond = condOf (t.reg dr)) ∧
    (flaggedDest i = none → t.cond = s.cond)) ∧
  (∀ (s t : State) ws o, loadImage ws o s = .ok t → t.cond = s.cond) ∧
  ∀ (s t : State) a, hostSetPc a s = .ok t → t.cond = s.cond

/-- R28 (with the spec's inference): no instruction but BR reads COND, and BR is not taken while no
flag is set. -/
def Obligations.OnlyBrReadsCond : Prop :=
  (∀ (i : Instr) (s t : State) (c : BitVec 3), (∀ n z p off, i ≠ .br n z p off) →
    exec i s = .next t →
      exec i (s.setCond c) = .next (t.setCond (if flaggedDest i = none then c else t.cond))) ∧
  ∀ (s : State) (n z p : Bool) (off : BitVec 9), s.cond = 0b000 →
    exec (.br n z p off) s = .next s

/-- R56: memory changes only at the address of ST, STI and STR; every other instruction leaves every
cell. -/
def Obligations.MemoryChangesOnlyAtTheStoreAddress : Prop :=
  ∀ (i : Instr) (s t : State), s.mem.wf = true → exec i s = .next t →
    (∀ (a : Word) (sr : Reg), storeTarget s i = some (a, sr) →
      ∀ b : Nat, b ≠ a.toNat → t.mem.cellAt b = s.mem.cellAt b) ∧
    (storeTarget s i = none → ∀ b : Nat, t.mem.cellAt b = s.mem.cellAt b)

/-- R24 (D5's wrap-around): the increment is modulo 2^16, and only BR, JMP, JSR and JSRR write `pc`
besides it. -/
def Obligations.OnlyControlTransfersWritePc : Prop :=
  (∀ (i : Instr) (s t : State), writesPc i = false → exec i s = .next t → t.pc = s.pc) ∧
    ∀ s : State, s.pc = 0xFFFF → s.advance.pc = 0x0000

/-- R190: only TRAP primitives use the ports: any other instruction does the same whatever the
environment, and leaves it as it was. -/
def Obligations.OnlyTrapsUseThePorts : Prop :=
  ∀ (i : Instr) (s t : State) (p : Ports), i.opcode ≠ .trap → exec i s = .next t →
    t.ports = s.ports ∧ exec i (s.setPorts p) = .next (t.setPorts p)

/-- R202 (the spec's decision D19): no step takes back a byte the output port has accepted. -/
def Obligations.AcceptedBytesAreNotTakenBack : Prop :=
  ∀ s t : State, step s = .next t → ∃ bs, t.ports.accepted = s.ports.accepted ++ bs

/-! ### Flags -/

/-- R26: the flag update of `set_and_flag`. -/
def Obligations.SetAndFlag : Prop :=
  ∀ (s : State) (r : Reg) (v : Word),
    (s.setRegFlagged r v).reg r = v ∧
    (v = 0x0000 → (s.setRegFlagged r v).cond = 0b010) ∧
    (v ≠ 0x0000 → v.getLsbD 15 = true → (s.setRegFlagged r v).cond = 0b100) ∧
    (v ≠ 0x0000 → v.getLsbD 15 = false → (s.setRegFlagged r v).cond = 0b001)

/-! ### Operate -/

/-- R122: ADD, register form. -/
def Obligations.AddRegister : Prop :=
  (∀ dr sr1 sr2 : Reg,
    decode (0b0001#4 ++ dr.bits ++ sr1.bits ++ 0b000#3 ++ sr2.bits) = .ok (.add dr sr1 sr2)) ∧
  (∀ (dr sr1 sr2 : Reg) (s : State), ∃ t, exec (.add dr sr1 sr2) s = .next t ∧
    FlaggedWrite s t dr (s.reg sr1 + s.reg sr2)) ∧
  ∀ (s : State) (w : Word), Fetches s w → w.extractLsb' 12 4 = 0x1 → w.getLsbD 5 = false →
    w.extractLsb' 3 2 ≠ 0b00 → ∃ t, step s = .next t ∧ Raised s.advance t .invalidOpcode

/-- R123: ADD, immediate form. -/
def Obligations.AddImmediate : Prop :=
  (∀ (dr sr1 : Reg) (imm5 : BitVec 5),
    decode (0b0001#4 ++ dr.bits ++ sr1.bits ++ 0b1#1 ++ imm5) = .ok (.addi dr sr1 imm5)) ∧
  ∀ (dr sr1 : Reg) (imm5 : BitVec 5) (s : State), ∃ t, exec (.addi dr sr1 imm5) s = .next t ∧
    FlaggedWrite s t dr (s.reg sr1 + imm5.signExtend 16)

/-- R124: AND, register form. -/
def Obligations.AndRegister : Prop :=
  (∀ dr sr1 sr2 : Reg,
    decode (0b0101#4 ++ dr.bits ++ sr1.bits ++ 0b000#3 ++ sr2.bits) = .ok (.and dr sr1 sr2)) ∧
  (∀ (dr sr1 sr2 : Reg) (s : State), ∃ t, exec (.and dr sr1 sr2) s = .next t ∧
    FlaggedWrite s t dr (s.reg sr1 &&& s.reg sr2)) ∧
  ∀ (s : State) (w : Word), Fetches s w → w.extractLsb' 12 4 = 0x5 → w.getLsbD 5 = false →
    w.extractLsb' 3 2 ≠ 0b00 → ∃ t, step s = .next t ∧ Raised s.advance t .invalidOpcode

/-- R125: AND, immediate form. -/
def Obligations.AndImmediate : Prop :=
  (∀ (dr sr1 : Reg) (imm5 : BitVec 5),
    decode (0b0101#4 ++ dr.bits ++ sr1.bits ++ 0b1#1 ++ imm5) = .ok (.andi dr sr1 imm5)) ∧
  ∀ (dr sr1 : Reg) (imm5 : BitVec 5) (s : State), ∃ t, exec (.andi dr sr1 imm5) s = .next t ∧
    FlaggedWrite s t dr (s.reg sr1 &&& imm5.signExtend 16)

/-- R126: NOT. -/
def Obligations.NotRegister : Prop :=
  (∀ dr sr : Reg, decode (0b1001#4 ++ dr.bits ++ sr.bits ++ 0b111111#6) = .ok (.not dr sr)) ∧
  (∀ (dr sr : Reg) (s : State), ∃ t, exec (.not dr sr) s = .next t ∧
    FlaggedWrite s t dr (~~~ s.reg sr)) ∧
  ∀ (s : State) (w : Word), Fetches s w → w.extractLsb' 12 4 = 0x9 →
    w.extractLsb' 0 6 ≠ 0b111111 → ∃ t, step s = .next t ∧ Raised s.advance t .invalidOpcode

/-! ### Loads, stores and addresses -/

/-- R141: LD. -/
def Obligations.LoadPcRelative : Prop :=
  (∀ (dr : Reg) (off : BitVec 9), decode (0b0010#4 ++ dr.bits ++ off) = .ok (.ld dr off)) ∧
  ∀ (dr : Reg) (off : BitVec 9) (s : State), ∃ t, exec (.ld dr off) s = .next t ∧
    FlaggedWrite s t dr (s.load (s.pc + off.signExtend 16))

/-- R142: LDI, the double indirection. -/
def Obligations.LoadIndirect : Prop :=
  (∀ (dr : Reg) (off : BitVec 9), decode (0b1010#4 ++ dr.bits ++ off) = .ok (.ldi dr off)) ∧
  ∀ (dr : Reg) (off : BitVec 9) (s : State), ∃ t, exec (.ldi dr off) s = .next t ∧
    FlaggedWrite s t dr (s.load (s.load (s.pc + off.signExtend 16)))

/-- R143: LDR. -/
def Obligations.LoadBasePlusOffset : Prop :=
  (∀ (dr baseR : Reg) (off : BitVec 6),
    decode (0b0110#4 ++ dr.bits ++ baseR.bits ++ off) = .ok (.ldr dr baseR off)) ∧
  ∀ (dr baseR : Reg) (off : BitVec 6) (s : State), ∃ t, exec (.ldr dr baseR off) s = .next t ∧
    FlaggedWrite s t dr (s.load (s.reg baseR + off.signExtend 16))

/-- R144: LEA, which sets the flags from the address and reads no memory. -/
def Obligations.LoadEffectiveAddress : Prop :=
  (∀ (dr : Reg) (off : BitVec 9), decode (0b1110#4 ++ dr.bits ++ off) = .ok (.lea dr off)) ∧
  ∀ (dr : Reg) (off : BitVec 9) (s : State), ∃ t, exec (.lea dr off) s = .next t ∧
    FlaggedWrite s t dr (s.pc + off.signExtend 16)

/-- R145: ST. -/
def Obligations.StorePcRelative : Prop :=
  (∀ (sr : Reg) (off : BitVec 9), decode (0b0011#4 ++ sr.bits ++ off) = .ok (.st sr off)) ∧
  ∀ (sr : Reg) (off : BitVec 9) (s : State), s.mem.wf = true →
    ∃ t, exec (.st sr off) s = .next t ∧ Stored s t (s.pc + off.signExtend 16) (s.reg sr)

/-- R146: STI, whose pointer is read before the write. -/
def Obligations.StoreIndirect : Prop :=
  (∀ (sr : Reg) (off : BitVec 9), decode (0b1011#4 ++ sr.bits ++ off) = .ok (.sti sr off)) ∧
  ∀ (sr : Reg) (off : BitVec 9) (s : State), s.mem.wf = true →
    ∃ t, exec (.sti sr off) s = .next t ∧
      Stored s t (s.load (s.pc + off.signExtend 16)) (s.reg sr)

/-- R147: STR. -/
def Obligations.StoreBasePlusOffset : Prop :=
  (∀ (sr baseR : Reg) (off : BitVec 6),
    decode (0b0111#4 ++ sr.bits ++ baseR.bits ++ off) = .ok (.str sr baseR off)) ∧
  ∀ (sr baseR : Reg) (off : BitVec 6) (s : State), s.mem.wf = true →
    ∃ t, exec (.str sr baseR off) s = .next t ∧
      Stored s t (s.reg baseR + off.signExtend 16) (s.reg sr)

/-- R148 (an inference of the spec): STI and a later LDI that name the same pointer cell. -/
def Obligations.StoreIndirectThenLoadIndirect : Prop :=
  ∀ (s t u : State) (sr dr : Reg) (off off' : BitVec 9), s.mem.wf = true →
    exec (.sti sr off) s = .next t → u.pcRelative off' = s.pcRelative off →
    s.load (s.pcRelative off) ≠ s.pcRelative off →
    u.load (s.pcRelative off) = t.load (s.pcRelative off) →
    u.load (s.load (s.pcRelative off)) = t.load (s.load (s.pcRelative off)) →
      ∃ v, exec (.ldi dr off') u = .next v ∧ v.reg dr = s.reg sr

/-- R63 (with the spec's inference): a store is seen by the fetch of the next step at its address,
and does not change the instruction being executed. -/
def Obligations.StoresAreSeenByTheNextFetch : Prop :=
  ∀ (i : Instr) (s t : State) (a : Word) (sr : Reg), s.mem.wf = true → s.status = .running →
    decode s.fetchWord = .ok i → storeTarget s.advance i = some (a, sr) →
      step s = .next (s.advance.store a (s.reg sr)) ∧
        (step s = .next t → t.pc = a → t.fetchWord = s.reg sr)

/-! ### Control -/

/-- R170: BR, a flag of COND being one of the mask (the spec's decision D4). -/
def Obligations.ConditionalBranch : Prop :=
  (∀ (n z p : Bool) (off : BitVec 9),
    decode (0b0000#4 ++ BitVec.ofBool n ++ BitVec.ofBool z ++ BitVec.ofBool p ++ off) =
      .ok (.br n z p off)) ∧
  ∀ (n z p : Bool) (off : BitVec 9) (s : State),
    ((n && s.cond.getLsbD 2 || z && s.cond.getLsbD 1 || p && s.cond.getLsbD 0) = true →
      ∃ t, exec (.br n z p off) s = .next t ∧ JumpedTo s t (s.pc + off.signExtend 16)) ∧
    ((n && s.cond.getLsbD 2 || z && s.cond.getLsbD 1 || p && s.cond.getLsbD 0) = false →
      exec (.br n z p off) s = .next s)

/-- R171: JMP, and RET as `JMP R7`. That the word of `JMP R7` decodes to the table's row RET and not
to `jmp` with R7 is the model's choice (log entry 6). -/
def Obligations.JumpThroughRegister : Prop :=
  (∀ baseR : Reg, decode (0b1100#4 ++ 0b000#3 ++ baseR.bits ++ 0b000000#6) =
    .ok (if baseR = .r7 then .ret else .jmp baseR)) ∧
  (∀ (baseR : Reg) (s : State), ∃ t, exec (.jmp baseR) s = .next t ∧
    JumpedTo s t (s.reg baseR)) ∧
  (∀ s : State, ∃ t, exec .ret s = .next t ∧ JumpedTo s t (s.reg .r7)) ∧
  ∀ (s : State) (w : Word), Fetches s w → w.extractLsb' 12 4 = 0xC →
    (w.extractLsb' 9 3 ≠ 0b000 ∨ w.extractLsb' 0 6 ≠ 0b000000) →
      ∃ t, step s = .next t ∧ Raised s.advance t .invalidOpcode

/-- R172: JSR. -/
def Obligations.CallPcRelative : Prop :=
  (∀ off : BitVec 11, decode (0b0100#4 ++ 0b1#1 ++ off) = .ok (.jsr off)) ∧
  ∀ (off : BitVec 11) (s : State), ∃ t, exec (.jsr off) s = .next t ∧
    Called s t (s.pc + off.signExtend 16)

/-- R173 (the spec's decision D20): JSRR; the target is the base register's value before R7 is
written, BaseR = R7 included. -/
def Obligations.CallThroughRegister : Prop :=
  (∀ baseR : Reg,
    decode (0b0100#4 ++ 0b0#1 ++ 0b00#2 ++ baseR.bits ++ 0b000000#6) = .ok (.jsrr baseR)) ∧
  (∀ (baseR : Reg) (s : State), ∃ t, exec (.jsrr baseR) s = .next t ∧ Called s t (s.reg baseR)) ∧
  ∀ (s : State) (w : Word), Fetches s w → w.extractLsb' 12 4 = 0x4 → w.getLsbD 11 = false →
    (w.extractLsb' 9 2 ≠ 0b00 ∨ w.extractLsb' 0 6 ≠ 0b000000) →
      ∃ t, step s = .next t ∧ Raised s.advance t .invalidOpcode

/-- R174 (an inference of the spec): after a call, `JMP R7` with R7 as the call left it resumes at
the instruction after it. -/
def Obligations.ReturnResumesAfterTheCall : Prop :=
  ∀ (s t u : State) (i : Instr), ((∃ off, i = .jsr off) ∨ ∃ baseR, i = .jsrr baseR) →
    s.status = .running → decode s.fetchWord = .ok i → step s = .next t →
    u.status = .running → decode u.fetchWord = .ok .ret → u.reg .r7 = t.reg .r7 →
      ∃ v, step u = .next v ∧ v.pc = s.pc + 1

/-! ### TRAP -/

/-- R192, R199 (the spec's decisions D7, D8, D10): the vector selects the primitive; every other
vector raises `InvalidOpcode` with no port transaction; no vector writes `pc`, COND, memory or a
register other than R0. -/
def Obligations.TrapSelectsItsPrimitive : Prop :=
  (∀ v : BitVec 8, decode (0b1111#4 ++ 0b0000#4 ++ v) = .ok (trapOfVector v)) ∧
  (∀ s : State, exec (.trap 0x20) s = exec .getc s ∧ exec (.trap 0x21) s = exec .out s ∧
    exec (.trap 0x22) s = exec .puts s ∧ exec (.trap 0x23) s = exec .inChar s ∧
    exec (.trap 0x24) s = exec .putsp s ∧ exec (.trap 0x25) s = exec .halt s) ∧
  (∀ (v : BitVec 8) (s : State), (v < 0x20 ∨ 0x25 < v) →
    trapOfVector v = .trap v ∧ ∃ t, exec (.trap v) s = .next t ∧ Raised s t .invalidOpcode) ∧
  (∀ (i : Instr) (s t : State), i.opcode = .trap → exec i s = .next t →
    t.pc = s.pc ∧ t.cond = s.cond ∧ t.mem = s.mem ∧ ∀ r, r ≠ .r0 → t.reg r = s.reg r) ∧
  ∀ (s : State) (w : Word), Fetches s w → w.extractLsb' 12 4 = 0xF →
    w.extractLsb' 8 4 ≠ 0b0000 → ∃ t, step s = .next t ∧ Raised s.advance t .invalidOpcode

/-- R193 (D13's upper byte), R201: GETC, whatever the port's answer, a scripted or a free one (log
entry 4). It completes exactly as the answer says and consumes one input answer. -/
def Obligations.GetcReadsOneByte : Prop :=
  decode 0xF020 = .ok .getc ∧
  (∀ (s : State) (b : Byte), s.ports.inputAnswer = some (.byte b) →
    ∃ t, exec .getc s = .next t ∧ ByteInR0 s t b ∧ (t.reg .r0).extractLsb' 8 8 = 0x00 ∧
      t.ports = s.ports.afterInput) ∧
  ∀ s : State, s.ports.inputAnswer = some .fail →
    ∃ t, exec .getc s = .next t ∧ Failed s t .ioFailure ∧ t.ports = s.ports.afterInput

/-- R194, R201 (the spec's decisions D11 and D19): OUT, whatever the port's answer, a scripted or a
free one (log entries 3 and 4). It completes exactly as the answer says and consumes one output
answer. -/
def Obligations.OutWritesTheLowByte : Prop :=
  decode 0xF021 = .ok .out ∧
  (∀ s : State, s.ports.outputAnswer 0 = some .ok →
    ∃ t, exec .out s = .next t ∧ s.sameData t ∧ t.status = s.status ∧
      t.ports = s.ports.afterOutputs 1 [(s.reg .r0).extractLsb' 0 8]) ∧
  ∀ s : State, s.ports.outputAnswer 0 = some .fail →
    ∃ t, exec .out s = .next t ∧ Failed s t .ioFailure ∧ t.ports = s.ports.afterOutputs 1 []

/-- R195, R196 (the spec's decision D15), R201, R202: PUTS, whatever the port's answers, scripted or
free ones (log entry 4). A string terminated below 65536 goes out character by character; a byte
that fails leaves the ones before it; with no terminator nothing goes out. -/
def Obligations.PutsWritesTheString : Prop :=
  decode 0xF022 = .ok .puts ∧
  (∀ (s : State) (n : Nat), putsString s.mem (s.reg .r0).toNat n → s.ports.accepts n →
    ∃ t, exec .puts s = .next t ∧ s.sameData t ∧ t.status = s.status ∧
      t.ports = s.ports.afterOutputs n (putsBytes s.mem (s.reg .r0).toNat n)) ∧
  (∀ (s : State) (n k : Nat), putsString s.mem (s.reg .r0).toNat n → k < n →
    s.ports.accepts k → s.ports.outputAnswer k = some .fail →
      ∃ t, exec .puts s = .next t ∧ Failed s t .ioFailure ∧
        t.ports = s.ports.afterOutputs (k + 1)
          ((putsBytes s.mem (s.reg .r0).toNat n).take k)) ∧
  ∀ s : State, (∀ a : Nat, (s.reg .r0).toNat ≤ a → a < 65536 → s.mem.cellAt a ≠ 0x0000) →
    ∃ t, exec .puts s = .next t ∧ Raised s t .outOfBounds

/-- R195, R198 (the spec's decision D16), R201, R202: PUTSP, the same over the unpacked bytes. -/
def Obligations.PutspWritesThePackedString : Prop :=
  decode 0xF024 = .ok .putsp ∧
  (∀ (s : State) (n : Nat), putspString s.mem (s.reg .r0).toNat n → s.ports.accepts n →
    ∃ t, exec .putsp s = .next t ∧ s.sameData t ∧ t.status = s.status ∧
      t.ports = s.ports.afterOutputs n (putspBytes s.mem (s.reg .r0).toNat n)) ∧
  (∀ (s : State) (n k : Nat), putspString s.mem (s.reg .r0).toNat n → k < n →
    s.ports.accepts k → s.ports.outputAnswer k = some .fail →
      ∃ t, exec .putsp s = .next t ∧ Failed s t .ioFailure ∧
        t.ports = s.ports.afterOutputs (k + 1)
          ((putspBytes s.mem (s.reg .r0).toNat n).take k)) ∧
  ∀ s : State, (∀ j : Nat, (s.reg .r0).toNat + j / 2 < 65536 →
      putspByte s.mem (s.reg .r0).toNat j ≠ 0x00) →
    ∃ t, exec .putsp s = .next t ∧ Raised s t .outOfBounds

/-- R197 (D14's parameter, log entry 5), R201, R202: IN, for the parameter `IN_PROMPT` whatever it
is and whatever the ports' answers, scripted or free ones (log entry 4); and each of its three
stages can fail. -/
def Obligations.InPromptsReadsAndEchoes : Prop :=
  decode 0xF023 = .ok .inChar ∧
  (∀ (s : State) (b : Byte), s.ports.accepts (Config.inPrompt.length + 1) →
    s.ports.inputAnswer = some (.byte b) →
      ∃ t, exec .inChar s = .next t ∧ ByteInR0 s t b ∧
        t.ports = s.ports.afterInput.afterOutputs (Config.inPrompt.length + 1)
          (Config.inPrompt ++ [b])) ∧
  (∀ s : State, exec .inChar s = trapInWith Config.inPrompt s) ∧
  (∀ (prompt : List Byte) (s : State) (k : Nat), k < prompt.length →
    s.ports.accepts k → s.ports.outputAnswer k = some .fail →
      ∃ t, trapInWith prompt s = .next t ∧ Failed s t .ioFailure ∧
        t.ports = s.ports.afterOutputs (k + 1) (prompt.take k)) ∧
  (∀ (prompt : List Byte) (s : State), s.ports.accepts prompt.length →
    s.ports.inputAnswer = some .fail →
      ∃ t, trapInWith prompt s = .next t ∧ Failed s t .ioFailure ∧
        t.ports = s.ports.afterInput.afterOutputs prompt.length prompt) ∧
  ∀ (prompt : List Byte) (s : State) (b : Byte), s.ports.accepts prompt.length →
    s.ports.inputAnswer = some (.byte b) → s.ports.outputAnswer prompt.length = some .fail →
      ∃ t, trapInWith prompt s = .next t ∧ Failed s t .ioFailure ∧
        t.ports = s.ports.afterInput.afterOutputs (prompt.length + 1) prompt

/-- R200 (the spec's decisions D11 on `pc` and D18 on the ports): HALT. -/
def Obligations.HaltEndsTheRun : Prop :=
  decode 0xF025 = .ok .halt ∧
  (∀ s : State, ∃ t, exec .halt s = .next t ∧ t.status = .halted ∧ s.sameData t ∧
    t.ports = s.ports) ∧
  ∀ s : State, Fetches s 0xF025 → ∃ t, hostStep s = .next (.halted, t) ∧ t.status = .halted ∧
    t.pc = s.pc + 1 ∧ t.regs = s.regs ∧ t.cond = s.cond ∧ t.mem = s.mem ∧ t.ports = s.ports ∧
    ∀ fuel, hostRun (fuel + 1) s = .next (some (.halted, t))

/-! ### Reserved opcodes -/

/-- R230, R231: RTI and RES raise `InvalidOpcode`, whatever `instr[11:0]`. -/
def Obligations.ReservedOpcodesRaiseInvalidOpcode : Prop :=
  (∀ x : BitVec 12, decode (0b1000#4 ++ x) = .ok (.rti x) ∧
    decode (0b1101#4 ++ x) = .ok (.res x)) ∧
  (∀ (x : BitVec 12) (s : State), ∃ t, exec (.rti x) s = .next t ∧ Raised s t .invalidOpcode) ∧
  (∀ (x : BitVec 12) (s : State), ∃ t, exec (.res x) s = .next t ∧ Raised s t .invalidOpcode) ∧
  ∀ (s : State) (w : Word), Fetches s w → (w.extractLsb' 12 4 = 0x8 ∨ w.extractLsb' 12 4 = 0xD) →
    ∃ t, step s = .next t ∧ Raised s.advance t .invalidOpcode

/-! ### The host interface -/

/-- R282 (the spec's decision D21): `load_image`. That the memory stays canonical is the model's own
clause (log entry 1). -/
def Obligations.LoadImageCopiesTheWords : Prop :=
  ∀ (ws : List Word) (o : Nat) (s : State),
    (o + ws.length ≤ 65536 → s.mem.wf = true → ∃ t, loadImage ws o s = .ok t ∧
      (∀ k (h : k < ws.length), t.mem.cellAt (o + k) = ws[k]) ∧
      (∀ a, (a < o ∨ o + ws.length ≤ a) → t.mem.cellAt a = s.mem.cellAt a) ∧
      t.regs = s.regs ∧ t.pc = s.pc ∧ t.cond = s.cond ∧ t.status = s.status ∧
      t.ports = s.ports ∧ t.mem.wf = true) ∧
    (65536 < o + ws.length → loadImage ws o s = .error .outOfBounds)

/-- R283 (the spec's decision D22): `set_pc`. -/
def Obligations.SetPcChecksItsAddress : Prop :=
  ∀ (a : Nat) (s : State),
    (a < 65536 → ∃ t, hostSetPc a s = .ok t ∧ t.pc.toNat = a ∧ t.regs = s.regs ∧
      t.cond = s.cond ∧ t.mem = s.mem ∧ t.status = s.status ∧ t.ports = s.ports) ∧
    (65536 ≤ a → hostSetPc a s = .error .outOfBounds)

/-- R284: the image format, the first byte of each pair in bits 15:8 and the origin first. -/
def Obligations.ImageBytesAreBigEndian : Prop :=
  ∀ (origin : Word) (ws : List Word),
    parseImage ((origin :: ws).flatMap fun w => [w.extractLsb' 8 8, w.extractLsb' 0 8]) =
      some (origin, ws)

/-- R95 (the spec's decision D24): a label's offset, when it fits, leads from the instruction to the
label. -/
def Obligations.LabelOffsetsReachTheirLabels : Prop :=
  ∀ (label addr : Word) (n : Nat) (off : BitVec n), n ≤ 16 →
    (labelOffset n label addr = some off ↔ (addr + 1) + off.signExtend 16 = label)
end

