-- ==== Sys2Proof/Laws/Encoding.lean ====
section
/-! SUPPORT. The decoder's parts: register and opcode numbers, and when a word decodes. -/

namespace Sys2Proof

@[simp] theorem Reg.ofBits_bits (r : Reg) : Reg.ofBits r.bits = r := by cases r <;> rfl

@[simp] theorem Reg.bits_ofBits (b : BitVec 3) : (Reg.ofBits b).bits = b := by
  revert b; decide

@[simp] theorem Opcode.ofBits_bits (o : Opcode) : Opcode.ofBits o.bits = o := by cases o <;> rfl

@[simp] theorem Opcode.bits_ofBits (b : BitVec 4) : (Opcode.ofBits b).bits = b := by
  revert b; decide

/-- A field that lies in the high part of a concatenation. -/
theorem cut_hi {v w a l : Nat} {x : BitVec v} {y : BitVec w} (h : w ≤ a) :
    (x ++ y).extractLsb' a l = x.extractLsb' (a - w) l :=
  BitVec.extractLsb'_append_eq_of_le h

/-- A field that lies in the low part of a concatenation. -/
theorem cut_lo {v w a l : Nat} {x : BitVec v} {y : BitVec w} (h : a + l ≤ w) :
    (x ++ y).extractLsb' a l = y.extractLsb' a l :=
  BitVec.extractLsb'_append_eq_of_add_le h

/-- A field that is all of a vector. -/
theorem cut_all {w : Nat} {x : BitVec w} : x.extractLsb' 0 w = x := BitVec.extractLsb'_eq_self

/-- A bit that lies in the high part of a concatenation. -/
theorem bit_hi {v w i : Nat} {x : BitVec v} {y : BitVec w} (h : w ≤ i) :
    (x ++ y).getLsbD i = x.getLsbD (i - w) := by
  rw [BitVec.getLsbD_append, if_neg (by omega)]

/-- A bit that lies in the low part of a concatenation. -/
theorem bit_lo {v w i : Nat} {x : BitVec v} {y : BitVec w} (h : i < w) :
    (x ++ y).getLsbD i = y.getLsbD i := by
  rw [BitVec.getLsbD_append, if_pos h]

/-- R85: the register field at 11:9 of a word that holds a register's number there. -/
theorem fieldsOf_reg11_9 {w : Word} {r : Reg} (h : w.extractLsb' 9 3 = r.bits) :
    (fieldsOf w).reg11_9 = r := by
  rw [fieldsOf, h, Reg.ofBits_bits]

/-- R85: the register field at 8:6 of a word that holds a register's number there. -/
theorem fieldsOf_reg8_6 {w : Word} {r : Reg} (h : w.extractLsb' 6 3 = r.bits) :
    (fieldsOf w).reg8_6 = r := by
  rw [fieldsOf, h, Reg.ofBits_bits]

/-- R85: the register field at 2:0 of a word that holds a register's number there. -/
theorem fieldsOf_reg2_0 {w : Word} {r : Reg} (h : w.extractLsb' 0 3 = r.bits) :
    (fieldsOf w).reg2_0 = r := by
  rw [fieldsOf, h, Reg.ofBits_bits]

/-- R84: the variant is fixed by the top four bits. -/
theorem opcodeOf_of_bits {w : Word} {b : BitVec 4} (h : w.extractLsb' 12 4 = b) :
    opcodeOf w = Opcode.ofBits b := by rw [opcodeOf, h]

/-- R84: the variant of a word in terms of its top four bits. -/
theorem opcodeOf_bits (w : Word) : (opcodeOf w).bits = w.extractLsb' 12 4 :=
  Opcode.bits_ofBits _

/-- R92: a word whose fixed bits hold decodes to its variant's instruction. -/
theorem decode_of_fixedBitsOk {w : Word} (h : fixedBitsOk w = true) :
    decode w = .ok (instrOf (opcodeOf w) (fieldsOf w)) := by
  simp [decode, decodeRecord, h]

/-- R92: a word with a wrong fixed bit is rejected by the name of its variant. -/
theorem decode_of_not_fixedBitsOk {w : Word} (h : fixedBitsOk w = false) :
    decode w = .error (.fixedBits (opcodeOf w)) := by
  simp [decode, decodeRecord, h]

/-- What a successful decoding says. -/
theorem decode_ok {w : Word} {i : Instr} (h : decode w = .ok i) :
    fixedBitsOk w = true ∧ i = instrOf (opcodeOf w) (fieldsOf w) := by
  cases hf : fixedBitsOk w
  · rw [decode_of_not_fixedBitsOk hf] at h; cases h
  · rw [decode_of_fixedBitsOk hf] at h; cases h; exact ⟨rfl, rfl⟩

end Sys2Proof
end

