-- ==== Sys2Proof/Laws/State.lean ====
section
/-! SUPPORT. One lemma per field per update of State, so that no later proof unfolds a record
update; and an extensionality lemma for State. -/

namespace Sys2Proof.Machine

@[simp] theorem State.setReg_regs (s : State) (r : Reg) (v : Word) : (s.setReg r v).regs = s.regs.set r v := rfl
@[simp] theorem State.setReg_pc (s : State) (r : Reg) (v : Word) : (s.setReg r v).pc = s.pc := rfl
@[simp] theorem State.setReg_cond (s : State) (r : Reg) (v : Word) : (s.setReg r v).cond = s.cond := rfl
@[simp] theorem State.setReg_mem (s : State) (r : Reg) (v : Word) : (s.setReg r v).mem = s.mem := rfl
@[simp] theorem State.setReg_status (s : State) (r : Reg) (v : Word) : (s.setReg r v).status = s.status := rfl
@[simp] theorem State.setReg_ports (s : State) (r : Reg) (v : Word) : (s.setReg r v).ports = s.ports := rfl

@[simp] theorem State.setPc_regs (s : State) (v : Word) : (s.setPc v).regs = s.regs := rfl
@[simp] theorem State.setPc_pc (s : State) (v : Word) : (s.setPc v).pc = v := rfl
@[simp] theorem State.setPc_cond (s : State) (v : Word) : (s.setPc v).cond = s.cond := rfl
@[simp] theorem State.setPc_mem (s : State) (v : Word) : (s.setPc v).mem = s.mem := rfl
@[simp] theorem State.setPc_status (s : State) (v : Word) : (s.setPc v).status = s.status := rfl
@[simp] theorem State.setPc_ports (s : State) (v : Word) : (s.setPc v).ports = s.ports := rfl

@[simp] theorem State.setCond_regs (s : State) (c : BitVec 3) : (s.setCond c).regs = s.regs := rfl
@[simp] theorem State.setCond_pc (s : State) (c : BitVec 3) : (s.setCond c).pc = s.pc := rfl
@[simp] theorem State.setCond_cond (s : State) (c : BitVec 3) : (s.setCond c).cond = c := rfl
@[simp] theorem State.setCond_mem (s : State) (c : BitVec 3) : (s.setCond c).mem = s.mem := rfl
@[simp] theorem State.setCond_status (s : State) (c : BitVec 3) : (s.setCond c).status = s.status := rfl
@[simp] theorem State.setCond_ports (s : State) (c : BitVec 3) : (s.setCond c).ports = s.ports := rfl

@[simp] theorem State.setMem_regs (s : State) (m : Memory) : (s.setMem m).regs = s.regs := rfl
@[simp] theorem State.setMem_pc (s : State) (m : Memory) : (s.setMem m).pc = s.pc := rfl
@[simp] theorem State.setMem_cond (s : State) (m : Memory) : (s.setMem m).cond = s.cond := rfl
@[simp] theorem State.setMem_mem (s : State) (m : Memory) : (s.setMem m).mem = m := rfl
@[simp] theorem State.setMem_status (s : State) (m : Memory) : (s.setMem m).status = s.status := rfl
@[simp] theorem State.setMem_ports (s : State) (m : Memory) : (s.setMem m).ports = s.ports := rfl

@[simp] theorem State.setStatus_regs (s : State) (st : Status) : (s.setStatus st).regs = s.regs := rfl
@[simp] theorem State.setStatus_pc (s : State) (st : Status) : (s.setStatus st).pc = s.pc := rfl
@[simp] theorem State.setStatus_cond (s : State) (st : Status) : (s.setStatus st).cond = s.cond := rfl
@[simp] theorem State.setStatus_mem (s : State) (st : Status) : (s.setStatus st).mem = s.mem := rfl
@[simp] theorem State.setStatus_status (s : State) (st : Status) : (s.setStatus st).status = st := rfl
@[simp] theorem State.setStatus_ports (s : State) (st : Status) : (s.setStatus st).ports = s.ports := rfl

@[simp] theorem State.setPorts_regs (s : State) (p : Ports) : (s.setPorts p).regs = s.regs := rfl
@[simp] theorem State.setPorts_pc (s : State) (p : Ports) : (s.setPorts p).pc = s.pc := rfl
@[simp] theorem State.setPorts_cond (s : State) (p : Ports) : (s.setPorts p).cond = s.cond := rfl
@[simp] theorem State.setPorts_mem (s : State) (p : Ports) : (s.setPorts p).mem = s.mem := rfl
@[simp] theorem State.setPorts_status (s : State) (p : Ports) : (s.setPorts p).status = s.status := rfl
@[simp] theorem State.setPorts_ports (s : State) (p : Ports) : (s.setPorts p).ports = p := rfl

@[simp] theorem State.setRegFlagged_regs (s : State) (r : Reg) (v : Word) : (s.setRegFlagged r v).regs = s.regs.set r v := rfl
@[simp] theorem State.setRegFlagged_pc (s : State) (r : Reg) (v : Word) : (s.setRegFlagged r v).pc = s.pc := rfl
@[simp] theorem State.setRegFlagged_cond (s : State) (r : Reg) (v : Word) : (s.setRegFlagged r v).cond = condOf v := rfl
@[simp] theorem State.setRegFlagged_mem (s : State) (r : Reg) (v : Word) : (s.setRegFlagged r v).mem = s.mem := rfl
@[simp] theorem State.setRegFlagged_status (s : State) (r : Reg) (v : Word) : (s.setRegFlagged r v).status = s.status := rfl
@[simp] theorem State.setRegFlagged_ports (s : State) (r : Reg) (v : Word) : (s.setRegFlagged r v).ports = s.ports := rfl

@[simp] theorem State.store_regs (s : State) (a v : Word) : (s.store a v).regs = s.regs := rfl
@[simp] theorem State.store_pc (s : State) (a v : Word) : (s.store a v).pc = s.pc := rfl
@[simp] theorem State.store_cond (s : State) (a v : Word) : (s.store a v).cond = s.cond := rfl
@[simp] theorem State.store_mem (s : State) (a v : Word) : (s.store a v).mem = s.mem.setCell a.toNat v := rfl
@[simp] theorem State.store_status (s : State) (a v : Word) : (s.store a v).status = s.status := rfl
@[simp] theorem State.store_ports (s : State) (a v : Word) : (s.store a v).ports = s.ports := rfl

@[simp] theorem State.advance_regs (s : State) : (s.advance).regs = s.regs := rfl
@[simp] theorem State.advance_pc (s : State) : (s.advance).pc = s.pc + 1 := rfl
@[simp] theorem State.advance_cond (s : State) : (s.advance).cond = s.cond := rfl
@[simp] theorem State.advance_mem (s : State) : (s.advance).mem = s.mem := rfl
@[simp] theorem State.advance_status (s : State) : (s.advance).status = s.status := rfl
@[simp] theorem State.advance_ports (s : State) : (s.advance).ports = s.ports := rfl

@[simp] theorem State.raise_regs (s : State) (k : ErrorKind) : (s.raise k).regs = s.regs := rfl
@[simp] theorem State.raise_pc (s : State) (k : ErrorKind) : (s.raise k).pc = s.pc := rfl
@[simp] theorem State.raise_cond (s : State) (k : ErrorKind) : (s.raise k).cond = s.cond := rfl
@[simp] theorem State.raise_mem (s : State) (k : ErrorKind) : (s.raise k).mem = s.mem := rfl
@[simp] theorem State.raise_status (s : State) (k : ErrorKind) : (s.raise k).status = .error k := rfl
@[simp] theorem State.raise_ports (s : State) (k : ErrorKind) : (s.raise k).ports = s.ports := rfl

@[simp] theorem State.call_regs (s : State) (v : Word) : (s.call v).regs = s.regs.set .r7 s.pc := rfl
@[simp] theorem State.call_pc (s : State) (v : Word) : (s.call v).pc = v := rfl
@[simp] theorem State.call_cond (s : State) (v : Word) : (s.call v).cond = s.cond := rfl
@[simp] theorem State.call_mem (s : State) (v : Word) : (s.call v).mem = s.mem := rfl
@[simp] theorem State.call_status (s : State) (v : Word) : (s.call v).status = s.status := rfl
@[simp] theorem State.call_ports (s : State) (v : Word) : (s.call v).ports = s.ports := rfl

@[simp] theorem State.jumpTo_regs (s : State) (b : Reg) : (s.jumpTo b).regs = s.regs := rfl
@[simp] theorem State.jumpTo_pc (s : State) (b : Reg) : (s.jumpTo b).pc = s.reg b := rfl
@[simp] theorem State.jumpTo_cond (s : State) (b : Reg) : (s.jumpTo b).cond = s.cond := rfl
@[simp] theorem State.jumpTo_mem (s : State) (b : Reg) : (s.jumpTo b).mem = s.mem := rfl
@[simp] theorem State.jumpTo_status (s : State) (b : Reg) : (s.jumpTo b).status = s.status := rfl
@[simp] theorem State.jumpTo_ports (s : State) (b : Reg) : (s.jumpTo b).ports = s.ports := rfl

@[simp] theorem State.reg_eq (s : State) (r : Reg) : s.reg r = s.regs.get r := rfl

@[simp] theorem State.load_eq (s : State) (a : Word) : s.load a = s.mem.cellAt a.toNat := rfl

theorem State.ext_fields {s t : State} (h1 : s.regs = t.regs) (h2 : s.pc = t.pc)
    (h3 : s.cond = t.cond) (h4 : s.mem = t.mem) (h5 : s.status = t.status)
    (h6 : s.ports = t.ports) : s = t := by
  cases s; cases t; simp_all

theorem State.isRunning_iff (s : State) : s.isRunning = true ↔ s.status = .running := by
  simp [State.isRunning]

end Sys2Proof.Machine
end

