-- ==== Sys2Proof/Laws/Registers.lean ====
section
/-! SUPPORT. The register file: a read after a write (R22, R23), and when two files are equal. -/

namespace Sys2Proof.Machine

@[simp] theorem Regs.get_set_same (rs : Regs) (r : Reg) (v : Word) : (rs.set r v).get r = v := by
  cases r <;> rfl

theorem Regs.get_set_other (rs : Regs) {r q : Reg} (v : Word) (h : q ≠ r) :
    (rs.set r v).get q = rs.get q := by
  cases r <;> cases q <;> first | rfl | exact absurd rfl h

theorem Regs.get_set (rs : Regs) (r q : Reg) (v : Word) :
    (rs.set r v).get q = if q = r then v else rs.get q := by
  split
  · next h => rw [h, Regs.get_set_same]
  · next h => exact Regs.get_set_other rs v h

theorem Regs.eq_of_get {rs qs : Regs} (h : ∀ r, rs.get r = qs.get r) : rs = qs := by
  have h0 := h .r0; have h1 := h .r1; have h2 := h .r2; have h3 := h .r3
  have h4 := h .r4; have h5 := h .r5; have h6 := h .r6; have h7 := h .r7
  cases rs; cases qs
  simp_all [Regs.get]

end Sys2Proof.Machine
end

