-- ==== Sys2Proof/Laws/Flags.lean ====
section
/-! SUPPORT. Flagged writes keep COND at exactly one flag (R25, R26). -/

namespace Sys2Proof.Machine

/-- R26: the three values `setcc` can leave. -/
theorem condOf_oneFlag (v : Word) : oneFlag (condOf v) := by
  unfold condOf oneFlag condZero condNeg condPos
  split
  · exact .inr (.inl rfl)
  · split
    · exact .inl rfl
    · exact .inr (.inr rfl)

theorem condLegal_iff (c : BitVec 3) : condLegal c = true ↔ c = 0b000 ∨ oneFlag c := by
  unfold oneFlag
  revert c
  decide

theorem condLegal_condOf (v : Word) : condLegal (condOf v) = true :=
  (condLegal_iff _).2 (.inr (condOf_oneFlag v))

/-- R28: with no flag set no mask matches. -/
theorem condMatches_noFlag {s : State} (h : s.cond = 0b000) (n z p : Bool) :
    s.condMatches n z p = false := by
  simp [State.condMatches, h]

/-- What a flagged write leaves, as the statements say it. -/
theorem setRegFlagged_spec (s : State) (r : Reg) (v : Word) :
    FlaggedWrite s (s.setRegFlagged r v) r v := by
  refine ⟨by simp, rfl, fun q hq => ?_, rfl, rfl, rfl, rfl⟩
  simpa using Regs.get_set_other s.regs v hq

/-- What a call leaves, as the statements say it. -/
theorem call_spec (s : State) (target : Word) : Called s (s.call target) target := by
  refine ⟨by simp, rfl, fun q hq => ?_, rfl, rfl, rfl, rfl⟩
  simpa using Regs.get_set_other s.regs s.pc hq

end Sys2Proof.Machine
end

