-- ==== Sys2Proof/Laws/Memory.lean ====
section
/-! SUPPORT. Memory: a read after a write, every operation keeps the canonical form, and the Memory
Unit never fails at a 16-bit address (R51, R54). -/

namespace Sys2Proof.Machine

@[simp] theorem Memory.cellAt_nil (a : Nat) : Memory.cellAt [] a = Memory.unlisted := rfl

theorem Memory.cellAt_cons (b : Nat) (v : Word) (m : Memory) (a : Nat) :
    Memory.cellAt ((b, v) :: m) a = if b = a then v else Memory.cellAt m a := rfl

/-- The canonical form, read from its head. -/
theorem Memory.wf_cons_iff (a : Nat) (v : Word) (m : Memory) :
    Memory.wf ((a, v) :: m) = true ↔
      v ≠ Memory.unlisted ∧ a < memorySize ∧ m.wf = true ∧ ∀ p ∈ m, a < p.1 := by
  induction m generalizing a v with
  | nil => simp [Memory.wf, and_comm]
  | cons p m ih =>
    obtain ⟨b, w⟩ := p
    have step : Memory.wf ((a, v) :: (b, w) :: m) = true ↔
        (a < b ∧ v ≠ Memory.unlisted) ∧ Memory.wf ((b, w) :: m) = true := by
      simp only [Memory.wf, Bool.and_eq_true, decide_eq_true_eq]
    rw [step]
    constructor
    · rintro ⟨⟨hab, hv⟩, hm⟩
      obtain ⟨-, hb, -, hall⟩ := (ih b w).1 hm
      refine ⟨hv, by omega, hm, fun p hp => ?_⟩
      rcases List.mem_cons.1 hp with rfl | hp
      · exact hab
      · exact hab.trans (hall p hp)
    · rintro ⟨hv, -, hm, hall⟩
      exact ⟨⟨hall _ List.mem_cons_self, hv⟩, hm⟩

/-- An address that no entry lists reads as an unlisted cell. -/
theorem Memory.cellAt_of_not_mem {m : Memory} {a : Nat} (h : ∀ p ∈ m, p.1 ≠ a) :
    m.cellAt a = Memory.unlisted := by
  induction m with
  | nil => rfl
  | cons p m ih =>
    rw [Memory.cellAt_cons, if_neg (h p List.mem_cons_self)]
    exact ih fun q hq => h q (List.mem_cons_of_mem _ hq)

/-- Read after write: the value at its address, every other address as before. -/
theorem Memory.cellAt_setCell {m : Memory} (h : m.wf = true) (a : Nat) (v : Word) (b : Nat) :
    (m.setCell a v).cellAt b = if b = a then v else m.cellAt b := by
  induction m with
  | nil =>
    by_cases hv : v = Memory.unlisted
    · simp [Memory.setCell, hv]
    · simp [Memory.setCell, Memory.cellAt_cons, hv, eq_comm]
  | cons p m ih =>
    obtain ⟨c, w⟩ := p
    obtain ⟨-, -, hm, hall⟩ := (Memory.wf_cons_iff c w m).1 h
    have absent : ∀ d, d ≤ c → Memory.cellAt m d = Memory.unlisted := fun d hd =>
      Memory.cellAt_of_not_mem fun p hp he => by have := hall p hp; omega
    rcases lt_trichotomy a c with hac | rfl | hac
    · by_cases hv : v = Memory.unlisted
      · rw [Memory.setCell, if_pos hac, if_pos hv]
        split
        · next hb => rw [Memory.cellAt_cons, if_neg (by omega), absent b (by omega), hv]
        · rfl
      · rw [Memory.setCell, if_pos hac, if_neg hv, Memory.cellAt_cons]
        exact if_congr eq_comm rfl rfl
    · rw [Memory.setCell, if_neg (lt_irrefl a), if_pos rfl]
      by_cases hb : b = a
      · subst hb
        split
        · next hv => rw [if_pos rfl, absent b le_rfl, hv]
        · rw [Memory.cellAt_cons, if_pos rfl, if_pos rfl]
      · rw [if_neg hb, Memory.cellAt_cons a w, if_neg (Ne.symm hb)]
        split
        · rfl
        · rw [Memory.cellAt_cons, if_neg (Ne.symm hb)]
    · rw [Memory.setCell, if_neg (by omega), if_neg (by omega), Memory.cellAt_cons,
        Memory.cellAt_cons, ih hm]
      split
      · next hcb => rw [if_neg (by omega)]
      · rfl

/-- A write adds at most its own entry. -/
theorem Memory.mem_setCell {m : Memory} {a : Nat} {v : Word} {p : Nat × Word}
    (h : p ∈ m.setCell a v) : p = (a, v) ∨ p ∈ m := by
  induction m with
  | nil =>
    by_cases hv : v = Memory.unlisted <;> simp_all [Memory.setCell]
  | cons q m ih =>
    obtain ⟨c, w⟩ := q
    by_cases hac : a < c <;> by_cases hca : a = c <;> by_cases hv : v = Memory.unlisted <;>
      simp_all [Memory.setCell] <;> tauto

/-- Every write keeps the canonical form. -/
theorem Memory.setCell_wf {m : Memory} (h : m.wf = true) {a : Nat} (ha : a < memorySize) (v : Word) :
    (m.setCell a v).wf = true := by
  induction m with
  | nil =>
    by_cases hv : v = Memory.unlisted
    · simp [Memory.setCell, hv, Memory.wf]
    · simp [Memory.setCell, hv, Memory.wf, ha]
  | cons p m ih =>
    obtain ⟨c, w⟩ := p
    obtain ⟨hw, hc, hm, hall⟩ := (Memory.wf_cons_iff c w m).1 h
    have ih := ih hm
    by_cases hac : a < c
    · by_cases hv : v = Memory.unlisted
      · simpa [Memory.setCell, hac, hv] using h
      · have hstep : Memory.setCell ((c, w) :: m) a v = (a, v) :: (c, w) :: m := by
          simp [Memory.setCell, hac, hv]
        rw [hstep, Memory.wf_cons_iff]
        refine ⟨hv, ha, h, fun q hq => ?_⟩
        rcases List.mem_cons.1 hq with rfl | hq
        · exact hac
        · exact hac.trans (hall q hq)
    · by_cases hca : a = c
      · subst hca
        by_cases hv : v = Memory.unlisted
        · simpa [Memory.setCell, hv] using hm
        · have hstep : Memory.setCell ((a, w) :: m) a v = (a, v) :: m := by
            simp [Memory.setCell, hv]
          rw [hstep, Memory.wf_cons_iff]
          exact ⟨hv, ha, hm, hall⟩
      · have hstep : Memory.setCell ((c, w) :: m) a v = (c, w) :: Memory.setCell m a v := by
          simp [Memory.setCell, hac, hca]
        rw [hstep, Memory.wf_cons_iff]
        refine ⟨hw, hc, ih, fun q hq => ?_⟩
        rcases Memory.mem_setCell hq with rfl | hq
        · show c < a; omega
        · exact hall q hq

/-- R51, R54: at a 16-bit address the Memory Unit's read gives what `load` gives. -/
theorem Memory.read_word (m : Memory) (a : Word) : m.read a.toNat = .ok (m.cellAt a.toNat) := by
  have : a.toNat < memorySize := a.isLt
  simp [Memory.read, this]

/-- R51, R54: at a 16-bit address the Memory Unit's write gives what `store` gives. -/
theorem Memory.write_word (m : Memory) (a v : Word) :
    m.write a.toNat v = .ok (m.setCell a.toNat v) := by
  have : a.toNat < memorySize := a.isLt
  simp [Memory.write, this]

/-- The Memory Unit's write keeps the canonical form. -/
theorem Memory.write_wf {m m' : Memory} {a : Nat} {v : Word} (h : m.wf = true)
    (hw : m.write a v = .ok m') : m'.wf = true := by
  unfold Memory.write at hw
  split at hw
  · next ha => cases hw; exact Memory.setCell_wf h ha v
  · cases hw

theorem State.store_wf {s : State} (h : s.mem.wf = true) (a v : Word) :
    (s.store a v).mem.wf = true :=
  Memory.setCell_wf h a.isLt v

theorem State.load_store {s : State} (h : s.mem.wf = true) (a v b : Word) :
    (s.store a v).load b = if b = a then v else s.load b := by
  simp [State.load, State.store, State.setMem, Memory.cellAt_setCell h, BitVec.toNat_inj]

/-- R282: loading an image keeps the canonical form. -/
theorem copyWords_wf {m : Memory} (h : m.wf = true) {o : Nat} {ws : List Word}
    (ho : o + ws.length ≤ memorySize) : (copyWords m o ws).wf = true := by
  induction ws generalizing m o with
  | nil => exact h
  | cons w ws ih =>
    simp only [List.length_cons] at ho
    exact ih (Memory.setCell_wf h (by omega) w) (by omega)

end Sys2Proof.Machine
end

