-- ==== Sys2Proof/Laws/Ports.lean ====
section
/-! SUPPORT. The port operations: what one transaction and a row of bytes can do. -/

namespace Sys2Proof.Machine

/-- `InByte()` answers unless its script says never, and touches nothing but the input side. -/
theorem State.takeInput_cases (s : State) :
    (s.takeInput = none ∧ s.ports.inputScript.head? = some none) ∨
    ∃ r p, s.takeInput = some (r, s.setPorts p) ∧ p.accepted = s.ports.accepted ∧
      p.outputScript = s.ports.outputScript ∧ p.outputFree = s.ports.outputFree ∧
      (p.inputScript = s.ports.inputScript ∨ some r :: p.inputScript = s.ports.inputScript) := by
  unfold State.takeInput
  split
  · next h => exact .inl ⟨rfl, by rw [h]; rfl⟩
  · next r rest h => exact .inr ⟨_, _, rfl, rfl, rfl, rfl, .inr h.symm⟩
  · next h => exact .inr ⟨_, _, rfl, rfl, rfl, rfl, .inl rfl⟩

/-- `OutByte(b)` answers unless its script says never, and touches nothing but the output side. -/
theorem State.putByte_cases (s : State) (b : Byte) :
    (s.putByte b = none ∧ s.ports.outputScript.head? = some none) ∨
    ∃ r p, s.putByte b = some (r, s.setPorts p) ∧
      p.accepted = acceptedAfter s.ports.accepted b r ∧
      p.inputScript = s.ports.inputScript ∧ p.inputFree = s.ports.inputFree ∧
      (p.outputScript = s.ports.outputScript ∨ some r :: p.outputScript = s.ports.outputScript) := by
  unfold State.putByte
  split
  · next h => exact .inl ⟨rfl, by rw [h]; rfl⟩
  · next r rest h => exact .inr ⟨_, _, rfl, rfl, rfl, rfl, .inr h.symm⟩
  · next h => exact .inr ⟨_, _, rfl, rfl, rfl, rfl, .inl rfl⟩

@[simp] theorem State.setPorts_setPorts (s : State) (p q : Ports) :
    (s.setPorts p).setPorts q = s.setPorts q := rfl

/-- A row of bytes, in order: either all are accepted, or the ones before the first that fails. -/
theorem State.putBytes_cases (s : State) (bs : List Byte) :
    (s.putBytes bs = none ∧ none ∈ s.ports.outputScript) ∨
    ∃ r p, s.putBytes bs = some (r, s.setPorts p) ∧
      (∃ pre, s.ports.outputScript = pre ++ p.outputScript) ∧
      p.inputScript = s.ports.inputScript ∧ p.inputFree = s.ports.inputFree ∧
      ((r = .ok ∧ p.accepted = s.ports.accepted ++ bs) ∨
        (r = .fail ∧ ∃ k, k < bs.length ∧ p.accepted = s.ports.accepted ++ bs.take k)) := by
  induction bs generalizing s with
  | nil => exact .inr ⟨.ok, s.ports, rfl, ⟨[], rfl⟩, rfl, rfl, .inl ⟨rfl, by simp⟩⟩
  | cons b bs ih =>
    have hscript : ∀ {r : OutReply} {p : Ports}, (p.outputScript = s.ports.outputScript ∨
        some r :: p.outputScript = s.ports.outputScript) →
        ∃ pre, s.ports.outputScript = pre ++ p.outputScript := fun {r p} h =>
      h.elim (fun h => ⟨[], by simp [h]⟩) (fun h => ⟨[some r], by simp [h]⟩)
    rcases s.putByte_cases b with ⟨h, hnone⟩ | ⟨r, p, h, hacc, hin, hfree, hs⟩
    · refine .inl ⟨by simp [State.putBytes, h], List.mem_of_head? hnone⟩
    · cases r with
      | fail =>
        refine .inr ⟨.fail, p, by simp [State.putBytes, h], hscript hs, hin, hfree,
          .inr ⟨rfl, 0, by simp, by simpa [acceptedAfter] using hacc⟩⟩
      | ok =>
        obtain ⟨pre, hpre⟩ := hscript hs
        have hstep : s.putBytes (b :: bs) = (s.setPorts p).putBytes bs := by
          simp [State.putBytes, h]
        rcases ih (s.setPorts p) with ⟨h', hmem⟩ | ⟨r', p', h', ⟨pre', hpre'⟩, hin', hfree', hres⟩
        · refine .inl ⟨hstep.trans h', ?_⟩
          rw [hpre]; exact List.mem_append_right _ hmem
        · have hacc' : p.accepted = s.ports.accepted ++ [b] := hacc
          refine .inr ⟨r', p', by rw [hstep, h', State.setPorts_setPorts], ⟨pre ++ pre', ?_⟩,
            hin'.trans hin, hfree'.trans hfree, ?_⟩
          · rw [hpre, List.append_assoc]; exact congrArg (pre ++ ·) hpre'
          · rcases hres with ⟨hr, ha⟩ | ⟨hr, k, hk, ha⟩
            · exact .inl ⟨hr, by rw [ha]; simp [hacc']⟩
            · exact .inr ⟨hr, k + 1, by simpa using hk, by rw [ha]; simp [hacc']⟩

/-! ### In terms of the answers of the environment -/

/-- `InByte()` is the next answer, which it consumes. -/
theorem State.takeInput_eq (s : State) :
    s.takeInput = s.ports.inputAnswer.map fun r => (r, s.setPorts s.ports.afterInput) := by
  unfold State.takeInput Ports.inputAnswer Ports.afterInput
  split
  · next h => simp [h]
  · next h => simp [h]
  · next h => simp [h]

/-- `OutByte(b)` is the next answer, which it consumes; the byte is accepted when it is `Ok`. -/
theorem State.putByte_eq (s : State) (b : Byte) :
    s.putByte b = (s.ports.outputAnswer 0).map fun r =>
      (r, s.setPorts (s.ports.afterOutputs 1 (acceptedAfter [] b r))) := by
  have hacc : ∀ r, acceptedAfter s.ports.accepted b r =
      s.ports.accepted ++ acceptedAfter [] b r := by
    intro r; cases r <;> simp [acceptedAfter]
  unfold State.putByte Ports.outputAnswer Ports.afterOutputs
  split
  · next h => simp [h]
  · next h => simp [h, hacc]
  · next h => simp [h, hacc]

/-- The answers left after some transactions are the later ones. -/
@[simp] theorem Ports.outputAnswer_afterOutputs (p : Ports) (n : Nat) (bs : List Byte) (k : Nat) :
    (p.afterOutputs n bs).outputAnswer k = p.outputAnswer (n + k) := by
  simp only [Ports.outputAnswer, Ports.afterOutputs, List.getD_eq_getElem?_getD, List.getElem?_drop,
    List.length_drop]
  by_cases h : n + k < p.outputScript.length
  · simp [List.getElem?_eq_getElem h]
  · rw [List.getElem?_eq_none (by omega)]
    simp only [Option.getD_none]
    congr 2; omega

/-- Output transactions one after another. -/
@[simp] theorem Ports.afterOutputs_afterOutputs (p : Ports) (m n : Nat) (bs cs : List Byte) :
    (p.afterOutputs m bs).afterOutputs n cs = p.afterOutputs (m + n) (bs ++ cs) := by
  simp only [Ports.afterOutputs, List.drop_drop, List.length_drop, List.append_assoc]
  congr 1; omega

@[simp] theorem Ports.afterOutputs_zero (p : Ports) : p.afterOutputs 0 [] = p := by
  simp [Ports.afterOutputs]

@[simp] theorem Ports.inputAnswer_afterOutputs (p : Ports) (n : Nat) (bs : List Byte) :
    (p.afterOutputs n bs).inputAnswer = p.inputAnswer := rfl

@[simp] theorem Ports.outputAnswer_afterInput (p : Ports) (k : Nat) :
    p.afterInput.outputAnswer k = p.outputAnswer k := rfl

/-- Input and output transactions are of different ports. -/
theorem Ports.afterInput_afterOutputs (p : Ports) (n : Nat) (bs : List Byte) :
    (p.afterOutputs n bs).afterInput = p.afterInput.afterOutputs n bs := rfl

theorem Ports.accepts_succ {p : Ports} {n : Nat} {bs : List Byte} (h : p.accepts (n + 1)) :
    (p.afterOutputs 1 bs).accepts n := by
  intro k hk
  rw [Ports.outputAnswer_afterOutputs, Nat.add_comm]
  exact h (k + 1) (by omega)

theorem State.putByte_accepted {s : State} (b : Byte) (h : s.ports.outputAnswer 0 = some .ok) :
    s.putByte b = some (.ok, s.setPorts (s.ports.afterOutputs 1 [b])) := by
  rw [State.putByte_eq, h]; rfl

/-- A row of bytes that all go out. -/
theorem State.putBytes_accepted {s : State} {bs : List Byte} (h : s.ports.accepts bs.length) :
    s.putBytes bs = some (.ok, s.setPorts (s.ports.afterOutputs bs.length bs)) := by
  induction bs generalizing s with
  | nil =>
    show some (OutReply.ok, s) = some (OutReply.ok, s.setPorts (s.ports.afterOutputs 0 []))
    rw [Ports.afterOutputs_zero]; rfl
  | cons b bs ih =>
    have hb := State.putByte_accepted b (h 0 (by simp))
    have := ih (s := s.setPorts (s.ports.afterOutputs 1 [b])) (Ports.accepts_succ h)
    simp only [State.putBytes, hb, this, State.setPorts_ports, State.setPorts_setPorts,
      Ports.afterOutputs_afterOutputs, List.length_cons, List.singleton_append,
      Nat.add_comm 1 bs.length]

/-- A row of bytes that stops at its k-th: what the k-th answer does is then all that is left. -/
theorem State.putBytes_upTo {s : State} {bs : List Byte} {k : Nat} (hk : k < bs.length)
    (h : s.ports.accepts k) :
    (s.ports.outputAnswer k = some .fail →
      s.putBytes bs = some (.fail, s.setPorts (s.ports.afterOutputs (k + 1) (bs.take k)))) ∧
    (s.ports.outputAnswer k = none → s.putBytes bs = none) := by
  induction bs generalizing s k with
  | nil => simp at hk
  | cons b bs ih =>
    cases k with
    | zero =>
      refine ⟨fun hf => ?_, fun hn => ?_⟩
      · simp [State.putBytes, State.putByte_eq, hf, acceptedAfter]
      · simp [State.putBytes, State.putByte_eq, hn]
    | succ k =>
      have hb := State.putByte_accepted b (h 0 (by omega))
      obtain ⟨h1, h2⟩ := ih (s := s.setPorts (s.ports.afterOutputs 1 [b])) (k := k)
        (by simpa using hk) (Ports.accepts_succ h)
      simp only [State.setPorts_ports, Ports.outputAnswer_afterOutputs, Nat.add_comm 1 k] at h1 h2
      refine ⟨fun hf => ?_, fun hn => ?_⟩
      · simp only [State.putBytes, hb, h1 hf, State.setPorts_setPorts,
          Ports.afterOutputs_afterOutputs, List.take_succ_cons, List.singleton_append,
          Nat.add_comm 1 (k + 1)]
      · simp only [State.putBytes, hb, h2 hn]

end Sys2Proof.Machine
end

