-- ==== Sys2Proof/Laws/Exec.lean ====
section
/-! SUPPORT. What one execute phase can do, said once per family, and then once for all of `exec`:
later proofs cite these instead of unfolding a meaning. -/

namespace Sys2Proof.Machine

/-- The output port keeps what it has accepted and may accept more (R202). -/
def Ports.grown (p q : Ports) : Prop := ∃ bs, q.accepted = p.accepted ++ bs

theorem Ports.grown_refl (p : Ports) : p.grown p := ⟨[], by simp⟩

theorem Ports.grown_of_eq {p q : Ports} (h : q.accepted = p.accepted) : p.grown q :=
  ⟨[], by simp [h]⟩

theorem Ports.grown_trans {p q r : Ports} (h : p.grown q) (h' : q.grown r) : p.grown r := by
  obtain ⟨bs, hb⟩ := h
  obtain ⟨cs, hc⟩ := h'
  exact ⟨bs ++ cs, by rw [hc, hb, List.append_assoc]⟩

theorem State.putByte_grown {s s' : State} {b : Byte} {r : OutReply}
    (h : s.putByte b = some (r, s')) : s.ports.grown s'.ports := by
  rcases s.putByte_cases b with ⟨hn, -⟩ | ⟨r', p, hs, hacc, -⟩
  · simp [hn] at h
  · rw [hs] at h; cases h
    cases r with
    | ok => exact ⟨[b], hacc⟩
    | fail => exact Ports.grown_of_eq hacc

theorem State.putBytes_grown {s s' : State} {bs : List Byte} {r : OutReply}
    (h : s.putBytes bs = some (r, s')) : s.ports.grown s'.ports := by
  rcases s.putBytes_cases bs with ⟨hn, -⟩ | ⟨r', p, hs, -, -, -, ⟨-, ha⟩ | ⟨-, k, -, ha⟩⟩
  · simp [hn] at h
  · rw [hs] at h; cases h; exact ⟨_, ha⟩
  · rw [hs] at h; cases h; exact ⟨_, ha⟩

/-- All a TRAP or a reserved opcode can leave: some port transactions, and then the state it found,
or R0 with a byte in it, or an error, or the status `Halted`, each where the instruction allows it. -/
inductive TrapEffect (i : Instr) (s : State) : State → Prop
  | continued (p : Ports) (hp : s.ports.grown p) : TrapEffect i s (s.setPorts p)
  | gotByte (p : Ports) (b : Byte) (hp : s.ports.grown p) (hd : plainDest i = some .r0) :
      TrapEffect i s ((s.setPorts p).setReg .r0 (zext b))
  | failed (p : Ports) (k : ErrorKind) (hp : s.ports.grown p) (hk : mayRaise i k = true) :
      TrapEffect i s ((s.setPorts p).raise k)
  | halted (hi : i = .halt ∨ i = .trap 0x25) : TrapEffect i s (s.setStatus .halted)

theorem writeOut_effect {s t : State} {bs : List Byte} (h : writeOut bs s = .next t) :
    ∃ p, s.ports.grown p ∧ (t = s.setPorts p ∨ t = (s.setPorts p).raise .ioFailure) := by
  unfold writeOut at h
  rcases s.putBytes_cases bs with ⟨hn, -⟩ | ⟨r, p, hs, -⟩
  · simp [hn] at h
  · have hg : s.ports.grown p := State.putBytes_grown hs
    rw [hs] at h
    cases h
    cases r
    · exact ⟨p, hg, .inl rfl⟩
    · exact ⟨p, hg, .inr rfl⟩

/-- OUT is the row of one byte. -/
theorem trapOut_eq (s : State) : trapOut s = writeOut [lowByte (s.reg .r0)] s := by
  unfold trapOut writeOut
  simp only [State.putBytes]
  cases h : s.putByte (lowByte (s.reg .r0)) with
  | none => rfl
  | some rs => obtain ⟨r, s'⟩ := rs; cases r <;> rfl

/-- All a primitive that reads one byte can leave. -/
def ByteEffect (s t : State) : Prop :=
  ∃ p, s.ports.grown p ∧
    ((∃ b : Byte, t = (s.setPorts p).setReg .r0 (zext b)) ∨ t = (s.setPorts p).raise .ioFailure)

theorem ByteEffect.after {s t : State} {p : Ports} (hp : s.ports.grown p)
    (h : ByteEffect (s.setPorts p) t) : ByteEffect s t := by
  obtain ⟨q, hq, h⟩ := h
  exact ⟨q, Ports.grown_trans hp hq, h⟩

theorem trapGetc_effect {s t : State} (h : trapGetc s = .next t) : ByteEffect s t := by
  unfold trapGetc at h
  rcases s.takeInput_cases with ⟨hn, -⟩ | ⟨r, p, hs, hacc, -⟩
  · simp [hn] at h
  · rw [hs] at h
    cases h
    cases r with
    | byte b => exact ⟨p, Ports.grown_of_eq hacc, .inl ⟨b, rfl⟩⟩
    | fail => exact ⟨p, Ports.grown_of_eq hacc, .inr rfl⟩

theorem echoAndSet_effect {s t : State} {b : Byte} (h : echoAndSet b s = .next t) :
    ByteEffect s t := by
  unfold echoAndSet at h
  rcases s.putByte_cases b with ⟨hn, -⟩ | ⟨r, p, hs, -⟩
  · simp [hn] at h
  · have hg : s.ports.grown p := State.putByte_grown hs
    rw [hs] at h
    cases r <;> cases h
    · exact ⟨p, hg, .inl ⟨b, rfl⟩⟩
    · exact ⟨p, hg, .inr rfl⟩

theorem readAndEcho_effect {s t : State} (h : readAndEcho s = .next t) : ByteEffect s t := by
  unfold readAndEcho at h
  rcases s.takeInput_cases with ⟨hn, -⟩ | ⟨r, p, hs, hacc, -⟩
  · simp [hn] at h
  · rw [hs] at h
    cases r with
    | byte b => exact (echoAndSet_effect h).after (Ports.grown_of_eq hacc)
    | fail => cases h; exact ⟨p, Ports.grown_of_eq hacc, .inr rfl⟩

theorem trapInWith_effect {s t : State} {prompt : List Byte} (h : trapInWith prompt s = .next t) :
    ByteEffect s t := by
  unfold trapInWith at h
  rcases s.putBytes_cases prompt with ⟨hn, -⟩ | ⟨r, p, hs, -⟩
  · simp [hn] at h
  · have hg : s.ports.grown p := State.putBytes_grown hs
    rw [hs] at h
    cases r with
    | ok => exact (readAndEcho_effect h).after hg
    | fail => cases h; exact ⟨p, hg, .inr rfl⟩

theorem ByteEffect.trapEffect {i : Instr} {s t : State} (hd : plainDest i = some .r0)
    (hk : mayRaise i .ioFailure = true) (h : ByteEffect s t) : TrapEffect i s t := by
  obtain ⟨p, hp, ⟨b, rfl⟩ | rfl⟩ := h
  · exact .gotByte p b hp hd
  · exact .failed p _ hp hk

theorem writeOut_trapEffect {i : Instr} {s t : State} {bs : List Byte}
    (hk : mayRaise i .ioFailure = true) (h : writeOut bs s = .next t) : TrapEffect i s t := by
  obtain ⟨p, hp, rfl | rfl⟩ := writeOut_effect h
  · exact .continued p hp
  · exact .failed p _ hp hk

theorem trapOut_trapEffect {i : Instr} {s t : State} (hk : mayRaise i .ioFailure = true)
    (h : trapOut s = .next t) : TrapEffect i s t :=
  writeOut_trapEffect hk (trapOut_eq s ▸ h)

/-- A walk fails only with `OutOfBounds` (R195). -/
theorem putsWalk_error {m : Memory} {n a : Nat} {e : ErrorKind}
    (h : putsWalk m n a = .error e) : e = .outOfBounds := by
  induction n generalizing a with
  | zero => cases h; rfl
  | succ n ih =>
    unfold putsWalk Memory.read at h
    split at h
    · next heq => split at heq <;> cases heq; cases h; rfl
    · split at h
      · cases h
      · split at h
        · next heq => cases h; exact ih heq
        · cases h

theorem putspWalk_error {m : Memory} {n a : Nat} {e : ErrorKind}
    (h : putspWalk m n a = .error e) : e = .outOfBounds := by
  induction n generalizing a with
  | zero => cases h; rfl
  | succ n ih =>
    unfold putspWalk Memory.read at h
    split at h
    · next heq => split at heq <;> cases heq; cases h; rfl
    · split at h
      · cases h
      · split at h
        · cases h
        · split at h
          · next heq => cases h; exact ih heq
          · cases h

theorem writeWalked_trapEffect {i : Instr} {s t : State} {w : Except ErrorKind (List Byte)}
    (hio : mayRaise i .ioFailure = true)
    (hw : ∀ e, w = .error e → mayRaise i e = true)
    (h : writeWalked w s = .next t) : TrapEffect i s t := by
  cases w with
  | error e => cases h; exact .failed s.ports e (Ports.grown_refl _) (hw e rfl)
  | ok bs => exact writeOut_trapEffect hio h

theorem trapPuts_trapEffect {i : Instr} {s t : State} (hio : mayRaise i .ioFailure = true)
    (hoob : mayRaise i .outOfBounds = true) (h : trapPuts s = .next t) : TrapEffect i s t :=
  writeWalked_trapEffect hio (fun _ he => putsWalk_error he ▸ hoob) h

theorem trapPutsp_trapEffect {i : Instr} {s t : State} (hio : mayRaise i .ioFailure = true)
    (hoob : mayRaise i .outOfBounds = true) (h : trapPutsp s = .next t) : TrapEffect i s t :=
  writeWalked_trapEffect hio (fun _ he => putspWalk_error he ▸ hoob) h

theorem trapDispatch_trapEffect {s t : State} {v : BitVec 8} (h : trapDispatch v s = .next t) :
    TrapEffect (.trap v) s t := by
  unfold trapDispatch at h
  split at h
  · next hv => subst hv; exact (trapGetc_effect h).trapEffect rfl rfl
  split at h
  · next hv => subst hv; exact trapOut_trapEffect rfl h
  split at h
  · next hv => subst hv; exact trapPuts_trapEffect rfl rfl h
  split at h
  · next hv => subst hv; exact (trapInWith_effect h).trapEffect rfl rfl
  split at h
  · next hv => subst hv; exact trapPutsp_trapEffect rfl rfl h
  split at h
  · next hv => subst hv; cases h; exact .halted (.inr rfl)
  · next h0 h1 h2 h3 h4 h5 =>
    cases h
    refine .failed s.ports _ (Ports.grown_refl _) ?_
    simp only [mayRaise, vectorMayRaise, Bool.or_eq_true, decide_eq_true_eq]
    bv_omega

/-- All an execute phase can leave, whatever the instruction. -/
inductive ExecEffect (i : Instr) (s : State) : State → Prop
  | flagged (r : Reg) (v : Word) (hd : flaggedDest i = some r) : ExecEffect i s (s.setRegFlagged r v)
  | stored (a : Word) (r : Reg) (hs : storeTarget s i = some (a, r)) :
      ExecEffect i s (s.store a (s.reg r))
  | jumped (target : Word) (hw : writesPc i = true) : ExecEffect i s (s.setPc target)
  | called (target : Word) (hw : writesPc i = true) (hd : plainDest i = some .r7) :
      ExecEffect i s (s.call target)
  | trapped (t : State) (hi : isTrapOrReserved i = true) (ht : TrapEffect i s t) : ExecEffect i s t

theorem exec_effect {i : Instr} {s t : State} (h : exec i s = .next t) : ExecEffect i s t := by
  cases i with
  | br n z p off =>
    cases h
    split
    · exact .jumped _ rfl
    · exact .jumped s.pc rfl
  | add => cases h; exact .flagged _ _ rfl
  | addi => cases h; exact .flagged _ _ rfl
  | and => cases h; exact .flagged _ _ rfl
  | andi => cases h; exact .flagged _ _ rfl
  | not => cases h; exact .flagged _ _ rfl
  | ld => cases h; exact .flagged _ _ rfl
  | ldi => cases h; exact .flagged _ _ rfl
  | ldr => cases h; exact .flagged _ _ rfl
  | lea => cases h; exact .flagged _ _ rfl
  | st => cases h; exact .stored _ _ rfl
  | sti => cases h; exact .stored _ _ rfl
  | str => cases h; exact .stored _ _ rfl
  | jmp => cases h; exact .jumped _ rfl
  | ret => cases h; exact .jumped _ rfl
  | jsr => cases h; exact .called _ rfl rfl
  | jsrr => cases h; exact .called _ rfl rfl
  | rti => cases h; exact .trapped _ rfl (.failed s.ports _ (Ports.grown_refl _) rfl)
  | res => cases h; exact .trapped _ rfl (.failed s.ports _ (Ports.grown_refl _) rfl)
  | getc => exact .trapped _ rfl ((trapGetc_effect h).trapEffect rfl rfl)
  | out => exact .trapped _ rfl (trapOut_trapEffect rfl h)
  | puts => exact .trapped _ rfl (trapPuts_trapEffect rfl rfl h)
  | inChar => exact .trapped _ rfl ((trapInWith_effect h).trapEffect rfl rfl)
  | putsp => exact .trapped _ rfl (trapPutsp_trapEffect rfl rfl h)
  | halt => cases h; exact .trapped _ rfl (.halted (.inl rfl))
  | trap v => exact .trapped _ rfl (trapDispatch_trapEffect h)

/-! ### Steps -/

/-- R80: a step that runs is the execute phase of the decoded word after the fetch increment. -/
theorem step_of_decode {s : State} {i : Instr} (hr : s.status = .running)
    (hd : decode s.fetchWord = .ok i) : step s = exec i s.advance := by
  simp [step, State.isRunning, hr, hd]

/-- R92: a step that fetches no instruction raises `InvalidOpcode`. -/
theorem step_of_reject {s : State} {why : DecodeReject} (hr : s.status = .running)
    (hd : decode s.fetchWord = .error why) : step s = .next (s.advance.raise .invalidOpcode) := by
  simp [step, State.isRunning, hr, hd, execRejected]

/-- R244: a step of a core that is not running. -/
theorem step_of_stopped {s : State} (hr : s.status ≠ .running) : step s = .next s := by
  simp [step, State.isRunning, hr, stepStopped]

/-- All a step can leave. -/
theorem step_next_cases {s t : State} (h : step s = .next t) :
    (s.status ≠ .running ∧ t = s) ∨
    (s.status = .running ∧ (∃ why, decode s.fetchWord = .error why) ∧
      t = s.advance.raise .invalidOpcode) ∨
    (s.status = .running ∧ ∃ i, decode s.fetchWord = .ok i ∧ exec i s.advance = .next t ∧
      ExecEffect i s.advance t) := by
  by_cases hr : s.status = .running
  · cases hd : decode s.fetchWord with
    | error why =>
      rw [step_of_reject hr hd] at h; cases h
      exact .inr (.inl ⟨hr, ⟨why, rfl⟩, rfl⟩)
    | ok i =>
      rw [step_of_decode hr hd] at h
      exact .inr (.inr ⟨hr, i, rfl, h, exec_effect h⟩)
  · rw [step_of_stopped hr] at h; cases h
    exact .inl ⟨hr, rfl⟩

/-- A run whose first step answers goes on from the state it answers. -/
theorem run_succ (M : Host.Core) {n : Nat} {s s' : M.State} (h : M.step s = .next s') :
    M.run (n + 1) s = M.run n s' := by
  simp [Host.Core.run, h]

end Sys2Proof.Machine
end

