-- ==== Sys2Proof/Laws/Operands.lean ====
section
/-! SUPPORT. Field extension (R10, R11) bit by bit. -/

namespace Sys2Proof.Machine

/-- R10: below bit N the field, from bit N up its sign. -/
theorem sext_getLsbD {n : Nat} (v : BitVec n) (i : Nat) (hi : i < 16) :
    (sext v).getLsbD i = if i < n then v.getLsbD i else v.msb := by
  unfold sext
  by_cases hin : i < n
  · by_cases hm : v.msb <;> simp [hm, hin, hi]
  · by_cases hm : v.msb
    · have hones : ∀ k (h : k < 16), (0xFFFF#16)[k] = true := by decide
      simp [hm, hin, hi, hones (i - n) (by omega)]
    · simp [hm, hin, hi, BitVec.getLsbD_of_ge v i (by omega)]

/-- R10: `sext_N` is two's-complement sign extension to a word. -/
theorem sext_eq_signExtend {n : Nat} (v : BitVec n) : sext v = v.signExtend 16 := by
  apply BitVec.eq_of_getLsbD_eq
  intro i hi
  rw [sext_getLsbD v i hi, BitVec.getLsbD_signExtend]
  simp [hi]

/-- R11: bits N and up are zero. -/
theorem zext_toNat {n : Nat} (v : BitVec n) (h : n ≤ 16) : (zext v).toNat = v.toNat := by
  have : v.toNat < 2 ^ 16 := lt_of_lt_of_le v.isLt (Nat.pow_le_pow_right (by decide) h)
  simpa [zext] using this

end Sys2Proof.Machine
end

