-- ==== Sys2Proof/Laws/PerInstr.lean ====
section
/-! SUPPORT. A fact of every instruction, one lemma per constructor: its encoded word carries the
number of its variant in bits 15:12 (R84). -/

namespace Sys2Proof.Laws.OpcodeField

/-- R84: the decoder reads the instruction's own variant in its encoded word. -/
def Statement (i : Instr) : Prop := opcodeOf (encode i) = i.opcode

theorem br (n z p o) : Statement (.br n z p o) :=
  opcodeOf_of_bits (b := 0x0) (by
    repeat refine (cut_hi (by decide)).trans ?_
    rfl)

theorem add (d s t) : Statement (.add d s t) :=
  opcodeOf_of_bits (b := 0x1) (by
    repeat refine (cut_hi (by decide)).trans ?_
    rfl)

theorem addi (d s v) : Statement (.addi d s v) :=
  opcodeOf_of_bits (b := 0x1) (by
    repeat refine (cut_hi (by decide)).trans ?_
    rfl)

theorem ld (d o) : Statement (.ld d o) :=
  opcodeOf_of_bits (b := 0x2) (by
    repeat refine (cut_hi (by decide)).trans ?_
    rfl)

theorem st (r o) : Statement (.st r o) :=
  opcodeOf_of_bits (b := 0x3) (by
    repeat refine (cut_hi (by decide)).trans ?_
    rfl)

theorem jsr (o) : Statement (.jsr o) :=
  opcodeOf_of_bits (b := 0x4) (by
    repeat refine (cut_hi (by decide)).trans ?_
    rfl)

theorem jsrr (b) : Statement (.jsrr b) :=
  opcodeOf_of_bits (b := 0x4) (by
    repeat refine (cut_hi (by decide)).trans ?_
    rfl)

theorem and (d s t) : Statement (.and d s t) :=
  opcodeOf_of_bits (b := 0x5) (by
    repeat refine (cut_hi (by decide)).trans ?_
    rfl)

theorem andi (d s v) : Statement (.andi d s v) :=
  opcodeOf_of_bits (b := 0x5) (by
    repeat refine (cut_hi (by decide)).trans ?_
    rfl)

theorem ldr (d b o) : Statement (.ldr d b o) :=
  opcodeOf_of_bits (b := 0x6) (by
    repeat refine (cut_hi (by decide)).trans ?_
    rfl)

theorem str (r b o) : Statement (.str r b o) :=
  opcodeOf_of_bits (b := 0x7) (by
    repeat refine (cut_hi (by decide)).trans ?_
    rfl)

theorem rti (x) : Statement (.rti x) :=
  opcodeOf_of_bits (b := 0x8) (by
    repeat refine (cut_hi (by decide)).trans ?_
    rfl)

theorem not (d s) : Statement (.not d s) :=
  opcodeOf_of_bits (b := 0x9) (by
    repeat refine (cut_hi (by decide)).trans ?_
    rfl)

theorem ldi (d o) : Statement (.ldi d o) :=
  opcodeOf_of_bits (b := 0xA) (by
    repeat refine (cut_hi (by decide)).trans ?_
    rfl)

theorem sti (r o) : Statement (.sti r o) :=
  opcodeOf_of_bits (b := 0xB) (by
    repeat refine (cut_hi (by decide)).trans ?_
    rfl)

theorem jmp (b) : Statement (.jmp b) :=
  opcodeOf_of_bits (b := 0xC) (by
    repeat refine (cut_hi (by decide)).trans ?_
    rfl)

theorem ret : Statement .ret :=
  rfl

theorem res (x) : Statement (.res x) :=
  opcodeOf_of_bits (b := 0xD) (by
    repeat refine (cut_hi (by decide)).trans ?_
    rfl)

theorem lea (d o) : Statement (.lea d o) :=
  opcodeOf_of_bits (b := 0xE) (by
    repeat refine (cut_hi (by decide)).trans ?_
    rfl)

theorem getc : Statement .getc :=
  rfl

theorem out : Statement .out :=
  rfl

theorem puts : Statement .puts :=
  rfl

theorem inChar : Statement .inChar :=
  rfl

theorem putsp : Statement .putsp :=
  rfl

theorem halt : Statement .halt :=
  rfl

theorem trap (v) : Statement (.trap v) :=
  opcodeOf_of_bits (b := 0xF) (by
    repeat refine (cut_hi (by decide)).trans ?_
    rfl)

end Sys2Proof.Laws.OpcodeField
end

