-- ==== Sys2Proof/Tests/Slice0.lean ====
section
/-! SUPPORT. Tests: the words of the spec's encodings (30_encoding.md R85, R97), an ill-formed term
for each check of WellFormed, single steps whose results are worked vectors of 95_test_vectors.md
(named W, O, M, CT, T there) or examples of the rules, and for each statement with hypotheses a
witness that meets them. -/

namespace Sys2Proof.Tests

open Sys2Proof.Machine

/-! ### Helpers -/

/-- A running core at `pc`, that fetches `w`, with these registers and cells. -/
def core (pc w : Word) (regs : List (Reg × Word) := []) (cells : List (Word × Word) := [])
    (cond : BitVec 3 := 0b000) : State :=
  let s := (State.reset.setPc pc).setCond cond
  let s := regs.foldl (fun s rv => s.setReg rv.1 rv.2) s
  cells.foldl (fun s av => s.store av.1 av.2) (s.store pc w)

/-- The environment's answers. -/
def withPorts (s : State) (ins : List (Option InReply)) (outs : List (Option OutReply)) : State :=
  s.setPorts { s.ports with inputScript := ins, outputScript := outs }

/-- The outcome is a next state with this property. -/
def nextIs (o : Host.Outcome State Fault Refusal) (P : State → Bool) : Bool :=
  match o with
  | .next t => P t
  | .fault _ => false
  | .refused _ => false

theorem next_of_nextIs {o : Host.Outcome State Fault Refusal} {P : State → Bool}
    (h : nextIs o P = true) : ∃ t, o = .next t ∧ P t = true := by
  cases o with
  | next t => exact ⟨t, rfl, h⟩
  | fault f => cases h
  | refused r => cases h

/-- The register, the flags and the program counter after a step. -/
def leaves (s : State) (r : Reg) (v : Word) (cond : BitVec 3) (pc : Word) : Bool :=
  nextIs (step s) fun t => decide (t.reg r = v ∧ t.cond = cond ∧ t.pc = pc ∧ t.status = .running)

/-- The cell, the flags and the program counter after a step. -/
def leavesCell (s : State) (a v : Word) (cond : BitVec 3) (pc : Word) : Bool :=
  nextIs (step s) fun t => decide (t.load a = v ∧ t.cond = cond ∧ t.pc = pc ∧ t.status = .running)

/-- The step ends with this error, `pc` one further and all else as it was. -/
def raises (s : State) (k : ErrorKind) : Bool :=
  nextIs (step s) fun t => decide (t = { s with
    pc := s.pc + 1, status := .error k, ports := t.ports })

/-- The step goes on, R0 holds `r0` and the output port has accepted these bytes. -/
def writes (s : State) (r0 : Word) (bs : List Byte) : Bool :=
  nextIs (step s) fun t => decide (t = { s with
    regs := t.regs, pc := s.pc + 1, ports := t.ports } ∧ t.reg .r0 = r0 ∧ t.ports.accepted = bs)

def decodesTo (w : Word) (i : Instr) : Bool :=
  match decode w with
  | .ok j => decide (j = i)
  | .error _ => false

def rejected (w : Word) : Bool :=
  match decode w with
  | .ok _ => false
  | .error _ => true

/-! ### Decoding: words written out from the bit strings of R85 -/

theorem test_decode_operate :
    decodesTo 0b0001_000_001_0_00_010 (.add .r0 .r1 .r2) &&
    decodesTo 0b0001_000_001_1_11101 (.addi .r0 .r1 0b11101) &&
    decodesTo 0b0101_010_011_0_00_100 (.and .r2 .r3 .r4) &&
    decodesTo 0b0101_001_001_1_00000 (.andi .r1 .r1 0) &&
    decodesTo 0b1001_011_100_111111 (.not .r3 .r4) = true := by decide

theorem test_decode_memory :
    decodesTo 0b0010_010_000000101 (.ld .r2 5) &&
    decodesTo 0b1010_011_000000010 (.ldi .r3 2) &&
    decodesTo 0b0110_100_101_111110 (.ldr .r4 .r5 0b111110) &&
    decodesTo 0b1110_000_100000000 (.lea .r0 0b100000000) &&
    decodesTo 0b0011_001_000000011 (.st .r1 3) &&
    decodesTo 0b1011_010_000000001 (.sti .r2 1) &&
    decodesTo 0b0111_110_111_011111 (.str .r6 .r7 31) = true := by decide

theorem test_decode_control :
    decodesTo 0b0000_0_1_0_000000010 (.br false true false 2) &&
    decodesTo 0b0000_1_0_1_000000010 (.br true false true 2) &&
    decodesTo 0b1100_000_011_000000 (.jmp .r3) &&
    decodesTo 0b1100_000_111_000000 .ret &&
    decodesTo 0b0100_1_00000000011 (.jsr 3) &&
    decodesTo 0b0100_0_00_010_000000 (.jsrr .r2) = true := by decide

theorem test_decode_trap :
    decodesTo 0b1111_0000_00100000 .getc && decodesTo 0b1111_0000_00100001 .out &&
    decodesTo 0b1111_0000_00100010 .puts && decodesTo 0b1111_0000_00100011 .inChar &&
    decodesTo 0b1111_0000_00100100 .putsp && decodesTo 0b1111_0000_00100101 .halt &&
    decodesTo 0b1111_0000_00100110 (.trap 0x26) && decodesTo 0b1111_0000_00011111 (.trap 0x1F) &&
    decodesTo 0b1111_0000_11111111 (.trap 0xFF) = true := by decide

theorem test_decode_reserved :
    decodesTo 0b1000_000000000000 (.rti 0) && decodesTo 0b1101_111111111111 (.res 0xFFF) =
      true := by decide

/-- R92: one word for each list of fixed bits. -/
theorem test_decode_rejects :
    rejected 0x1048 && rejected 0x5050 && rejected 0x9000 && rejected 0x903E && rejected 0xC280 &&
    rejected 0xC081 && rejected 0x4280 && rejected 0x4081 && rejected 0xF125 = true := by decide

/-- opcode_table.json's numbering: bit 0 of the table is bit 0 of the word. -/
theorem test_decodeTableWord :
    decodeTableWord 16 0x1042 = some (.add .r0 .r1 .r2) ∧ decodeTableWord 16 0x1048 = none := by
  decide

/-! ### WellFormed: an ill-formed term for each check -/

theorem test_wellFormed_refuses_jmp_r7 : Instr.wellFormed (.jmp .r7) = false := by decide

theorem test_wellFormed_refuses_named_vectors :
    Instr.wellFormed (.trap 0x20) = false ∧ Instr.wellFormed (.trap 0x25) = false := by decide

/-! ### Sign extension (vectors W1, W2, X1 to X10) -/

theorem test_sext :
    sext (0b01111 : BitVec 5) = 0x000F ∧ sext (0b11111 : BitVec 5) = 0xFFFF ∧
    sext (0b10000 : BitVec 5) = 0xFFF0 ∧ sext (0b011111 : BitVec 6) = 0x001F ∧
    sext (0b100000 : BitVec 6) = 0xFFE0 ∧ sext (0x0FF : BitVec 9) = 0x00FF ∧
    sext (0x100 : BitVec 9) = 0xFF00 ∧ sext (0x3FF : BitVec 11) = 0x03FF ∧
    sext (0x400 : BitVec 11) = 0xFC00 := by decide

/-! ### Operate (vectors O) -/

/-- O2. -/
theorem test_add_overflow_wraps :
    leaves (core 0x3000 0x1042 [(.r1, 0x7FFF), (.r2, 1)]) .r0 0x8000 0b100 0x3001 = true := by decide

/-- O5. -/
theorem test_add_source_is_destination :
    leaves (core 0x3000 0x1241 [(.r1, 0x4000)]) .r1 0x8000 0b100 0x3001 = true := by decide

/-- W3. -/
theorem test_addi_negative :
    leaves (core 0x3000 0x107D [(.r1, 5)]) .r0 0x0002 0b001 0x3001 = true := by decide

/-- O14. -/
theorem test_and :
    leaves (core 0x3000 0x54C4 [(.r3, 0xF0F0), (.r4, 0x0FF0)]) .r2 0x00F0 0b001 0x3001 = true := by
  decide

/-- O11: the immediate's sign extension. -/
theorem test_andi_extends :
    leaves (core 0x3000 0x507F [(.r1, 0x1234)]) .r0 0x1234 0b001 0x3001 = true := by decide

/-- O17. -/
theorem test_not_zero :
    leaves (core 0x3000 0x927F [(.r1, 0xFFFF)]) .r1 0x0000 0b010 0x3001 = true := by decide

/-- O10, O15, O20, and nothing is written. -/
theorem test_wrong_fixed_bits :
    raises (core 0x3000 0x1048 [(.r1, 1)]) .invalidOpcode &&
    raises (core 0x3000 0x5050) .invalidOpcode && raises (core 0x3000 0x9000) .invalidOpcode &&
    raises (core 0x3000 0xC280) .invalidOpcode && raises (core 0x3000 0x4280) .invalidOpcode &&
    raises (core 0x3000 0xF125) .invalidOpcode = true := by decide

/-! ### Memory (vectors M) -/

/-- M1: from the incremented `pc`. -/
theorem test_ld :
    leaves (core 0x3000 0x2405 [] [(0x3006, 0x8001), (0x3005, 7)]) .r2 0x8001 0b100 0x3001 = true := by
  decide

/-- M4: at the top of memory. -/
theorem test_ld_wraps :
    leaves (core 0xFFFF 0x2000 [] [(0x0000, 0x8000)]) .r0 0x8000 0b100 0x0000 = true := by decide

/-- M6. -/
theorem test_ldi :
    leaves (core 0x3000 0xA602 [] [(0x3003, 0x4000), (0x4000, 0x8001)]) .r3 0x8001 0b100 0x3001 =
      true := by decide

/-- M9: the sum wraps below zero. -/
theorem test_ldr_wraps :
    leaves (core 0x3000 0x6060 [(.r1, 0x0010)] [(0xFFF0, 0x1111)]) .r0 0x1111 0b001 0x3001 = true := by
  decide

/-- M14: LEA sets the flags. -/
theorem test_lea_sets_flags :
    leaves (core 0x7FFF 0xE000) .r0 0x8000 0b100 0x8000 = true := by decide

/-- M17: ST over its own cell leaves the flags. -/
theorem test_st :
    leavesCell (core 0x3000 0x37FF [(.r3, 0x8000)] [] 0b010) 0x3000 0x8000 0b010 0x3001 = true := by
  decide

/-- M19: the pointer cell itself. -/
theorem test_sti_own_pointer :
    leavesCell (core 0x3000 0xB201 [(.r1, 0xABCD)] [(0x3002, 0x3002)]) 0x3002 0xABCD 0 0x3001 =
      true := by decide

/-- M22. -/
theorem test_str_wraps :
    leavesCell (core 0x3000 0x7460 [(.r2, 0x5555)]) 0xFFE0 0x5555 0 0x3001 = true := by decide

/-! ### Control (vectors CT) -/

/-- CT1: before any flagged write no branch is taken. -/
theorem test_br_at_reset :
    leaves (core 0x3000 0x0E05) .r0 0 0b000 0x3001 = true := by decide

/-- W5, W6. -/
theorem test_br_mask :
    leaves (core 0x3010 0x0402 [] [] 0b010) .r0 0 0b010 0x3013 &&
    leaves (core 0x3010 0x0A02 [] [] 0b010) .r0 0 0b010 0x3011 = true := by decide

/-- CT8, CT9. -/
theorem test_jmp_and_ret :
    leaves (core 0x3000 0xC080 [(.r2, 0x1234)]) .r7 0 0 0x1234 &&
    leaves (core 0x3000 0xC1C0 [(.r7, 0x3050)]) .r7 0x3050 0 0x3050 = true := by decide

/-- CT14, CT16. -/
theorem test_jsr :
    leaves (core 0x3000 0x4C00) .r7 0x3001 0 0x2C01 &&
    leaves (core 0xFFFF 0x4800) .r7 0x0000 0 0x0000 = true := by decide

/-- CT18: the old R7 is the target. -/
theorem test_jsrr_r7 :
    leaves (core 0x3000 0x41C0 [(.r7, 0x5000)]) .r7 0x3001 0 0x5000 = true := by decide

/-! ### TRAP (vectors T and the rules' examples) -/

/-- T1, T3. -/
theorem test_getc :
    writes (withPorts (core 0x3000 0xF020 [(.r0, 0xABCD)] [] 0b100) [some (.byte 0xFF)] []) 0x00FF [] &&
    raises (withPorts (core 0x3000 0xF020 [(.r0, 0xABCD)]) [some .fail] []) .ioFailure = true := by
  decide

/-- T4, T5. -/
theorem test_out :
    writes (withPorts (core 0x3000 0xF021 [(.r0, 0x1241)]) [] [some .ok]) 0x1241 [0x41] &&
    raises (withPorts (core 0x3000 0xF021 [(.r0, 0x0041)]) [] [some .fail]) .ioFailure = true := by
  decide

/-- R196's example. -/
theorem test_puts :
    writes (withPorts (core 0x3000 0xF022 [(.r0, 0x3005)] [(0x3005, 0x0048), (0x3006, 0x0069)])
      [] [some .ok, some .ok]) 0x3005 [0x48, 0x69] = true := by decide

/-- R195: with no terminator below 65536 nothing goes out. -/
theorem test_puts_out_of_bounds :
    nextIs (step (core 0x3000 0xF022 [(.r0, 0xFFFF)] [(0xFFFF, 0x0041)])) (fun t =>
      decide (t.status = .error .outOfBounds ∧ t.ports.accepted = [] ∧ t.pc = 0x3001)) = true := by
  decide

/-- R198's example. -/
theorem test_putsp :
    writes (withPorts (core 0x3000 0xF024 [(.r0, 0x4000)] [(0x4000, 0x6948), (0x4001, 0x0021)])
      [] [some .ok, some .ok, some .ok]) 0x4000 [0x48, 0x69, 0x21] = true := by decide

/-- R197's example, with `IN_PROMPT` empty, and the same with the prompt "?". -/
theorem test_in :
    nextIs (trapInWith [] (withPorts State.reset [some (.byte 0x7A)] [some .ok])) (fun t =>
      decide (t.reg .r0 = 0x007A ∧ t.ports.accepted = [0x7A])) &&
    nextIs (trapInWith [0x3F] (withPorts State.reset [some (.byte 0x7A)] [some .ok, some .ok]))
      (fun t => decide (t.reg .r0 = 0x007A ∧ t.ports.accepted = [0x3F, 0x7A])) = true := by decide

/-- W8. -/
theorem test_halt :
    nextIs (step (core 0x3000 0xF025 [(.r0, 0x1111)] [] 0b001)) (fun t =>
      decide (t = { core 0x3000 0xF025 [(.r0, 0x1111)] [] 0b001 with
        pc := 0x3001, status := .halted })) = true := by decide

/-- R199's, R230's and R231's examples. -/
theorem test_reserved_and_unknown :
    raises (core 0x3000 0xF026) .invalidOpcode && raises (core 0x3000 0x8000) .invalidOpcode &&
    raises (core 0x3000 0xDFFF) .invalidOpcode = true := by decide

/-! ### The host interface -/

/-- R284, R290: origin 0x3000, words 0x107D and 0xF025. -/
theorem test_boot :
    (match boot [0x30, 0x00, 0x10, 0x7D, 0xF0, 0x25] with
      | some (.ok s) => decide (s.pc = 0x3000 ∧ s.mem = [(0x3000, 0x107D), (0x3001, 0xF025)])
      | some (.error _) => false
      | none => false) = true := by decide

/-- R95: the source's `ADD R0, R1, #-3`. -/
theorem test_instrText : instrText (.addi .r0 .r1 0b11101) = some "ADD R0, R1, #-3" := by decide

/-- R95: `.STRINGZ "Hi"` at 0x3005. -/
theorem test_stringz :
    placeAll 0x3005 [.stringz [0x48, 0x69], .fill 7] =
      [(0x3005, 0x0048), (0x3006, 0x0069), (0x3007, 0x0000), (0x3008, 7)] := by decide

/-- The host's check places a word and runs it first. -/
theorem test_withFetchWord :
    nextIs (step (State.reset.withFetchWord 16 0x103F)) (fun t => decide (t.reg .r0 = 0xFFFF)) =
      true := by decide

/-! ### Witnesses: a state and operands that meet the hypotheses of each statement that has some

A theorem witness_X names the obligation X; a statement of several clauses has one conjunct for
each. -/

/-- The step ends with this status. -/
def endsAs (s : State) (st : Status) : Bool := nextIs (step s) fun t => decide (t.status = st)

theorem endsAs_next {s : State} {st : Status} (h : endsAs s st = true) :
    ∃ t, step s = .next t ∧ t.status = st := by
  obtain ⟨t, ht, hp⟩ := next_of_nextIs h
  exact ⟨t, ht, of_decide_eq_true hp⟩

/-- The execute phase answers a next state. -/
def runs (i : Instr) (s : State) : Bool := nextIs (exec i s) fun _ => true

theorem runs_next {i : Instr} {s : State} (h : runs i s = true) : ∃ t, exec i s = .next t :=
  (next_of_nextIs h).imp fun _ ht => ht.1

theorem decodesTo_ok {w : Word} {i : Instr} (h : decodesTo w i = true) : decode w = .ok i := by
  unfold decodesTo at h
  split at h
  · next he => rw [he, of_decide_eq_true h]
  · cases h

/-- The environment's answers to `n` accepted bytes, and then `rest`. -/
def okThen (n : Nat) (rest : List (Option OutReply)) : List (Option OutReply) :=
  List.replicate n (some .ok) ++ rest

/-- GETC with one byte waiting, OUT with a port that accepts, and both with a port that fails. -/
def getting : State := withPorts (core 0x3000 0xF020) [some (.byte 0x41)] []
def sending : State := withPorts (core 0x3000 0xF021) [] [some .ok]
def getFailing : State := withPorts (core 0x3000 0xF020) [some .fail] []
def sendFailing : State := withPorts (core 0x3000 0xF021) [] [some .fail]

/-- R0 points at a string of two characters (R196) that ends at the top of memory. -/
def pointing (outs : List (Option OutReply)) : State :=
  withPorts (core 0x3000 0xF022 [(.r0, 0xFFFD)] [(0xFFFD, 0x0048), (0xFFFE, 0x4269)]) [] outs

/-- R0 points at a packed string of three characters (R198's example). -/
def pointingPacked (outs : List (Option OutReply)) : State :=
  withPorts (core 0x3000 0xF024 [(.r0, 0xFFFE)] [(0xFFFE, 0x6948), (0xFFFF, 0x0021)]) [] outs

/-- R0 points at a string that runs past the top of memory. -/
def unterminated (w : Word) : State := core 0x3000 w [(.r0, 0xFFFF)] [(0xFFFF, 0x4141)]

theorem witness_DecodeOfEncodeIsTheInstruction :
    Instr.wellFormed (.jmp .r6) = true ∧ Instr.wellFormed (.trap 0x1F) = true ∧
    Instr.wellFormed (.trap 0x26) = true ∧ Instr.wellFormed (.br true true true 0x1FF) = true := by
  decide

theorem witness_EncodeOfDecodeIsTheWord : decode 0xC1C0 = .ok .ret := decodesTo_ok (by decide)

theorem witness_WrongFixedBitsRaiseInvalidOpcode :
    Fetches (core 0x3000 0x1048) 0x1048 ∧ fixedBitsWrong 0x1048 ∧ fixedBitsWrong 0x5050 ∧
    fixedBitsWrong 0x903E ∧ fixedBitsWrong 0x4280 ∧ fixedBitsWrong 0xC081 ∧
    fixedBitsWrong 0xF125 :=
  ⟨by unfold Fetches; decide, .inl (by decide), .inl (by decide), .inr (.inl (by decide)),
    .inr (.inr (.inl (by decide))), .inr (.inr (.inr (.inl (by decide)))),
    .inr (.inr (.inr (.inr (by decide))))⟩

theorem witness_InvalidOpcodeExactlyOnReservedAndIllegalWords :
    Fetches (core 0x3000 0x8000) 0x8000 ∧ Fetches (core 0x3000 0xF026) 0xF026 ∧
    Fetches (core 0x3000 0x01FF) 0x01FF ∧ (0x01FF : Word) ≤ 0x01FF := by
  unfold Fetches; decide

theorem witness_ExtensionKeepsTheValue : 16 ≤ 16 ∧ (0x8000 : BitVec 16).msb = true := by decide

theorem witness_StepRunsTheDecodedInstruction :
    (core 0xFFFF 0x1042).status = .running ∧
    decode ((core 0xFFFF 0x1042).load (core 0xFFFF 0x1042).pc) = .ok (.add .r0 .r1 .r2) :=
  ⟨rfl, decodesTo_ok (by decide)⟩

theorem witness_MemoryUnitChecksBounds :
    65536 ≤ 65536 ∧ 65535 < 65536 ∧ Memory.wf [(0x3000, 7), (65535, 1)] = true := by decide

theorem witness_MemoriesThatReadAlikeAreEqual :
    Memory.wf [(0x3000, 7)] = true ∧
      Memory.wf ((Memory.setCell [(0x3000, 7)] 0x4000 9).setCell 0x4000 0) = true ∧
      ∀ a, Memory.cellAt [(0x3000, 7)] a =
        ((Memory.setCell [(0x3000, 7)] 0x4000 9).setCell 0x4000 0).cellAt a :=
  ⟨by decide, by decide, fun _ => rfl⟩

theorem witness_StepKeepsTheInvariant :
    (core 0x3000 0x37FF [(.r3, 0x8000)] [] 0b010).Inv ∧
      ∃ t, step (core 0x3000 0x37FF [(.r3, 0x8000)] [] 0b010) = .next t :=
  ⟨by unfold State.Inv; decide, (endsAs_next (st := .running) (by decide)).imp fun _ h => h.1⟩

theorem witness_ExactlyOneFlagAfterAFlaggedWrite :
    oneFlag (core 0x3000 0x1042 [] [] 0b100).cond ∧
      condLegal (core 0x3000 0x1042 [] [] 0b000).cond = true ∧
      (∃ t, step (core 0x3000 0x1042 [] [] 0b100) = .next t) ∧
      ∃ t, step (core 0x3000 0x1042 [] [] 0b000) = .next t :=
  ⟨by unfold oneFlag; decide, by decide,
    (endsAs_next (st := .running) (by decide)).imp fun _ h => h.1,
    (endsAs_next (st := .running) (by decide)).imp fun _ h => h.1⟩

theorem witness_AnsweredStepsHaveASuccessor :
    getting.answered ∧ (pointing [some .ok, some .fail]).answered := by
  unfold State.answered; decide

theorem witness_OnlyAnUnansweredTransactionEndsNoStep :
    step (withPorts (core 0x3000 0xF020) [none] []) = .fault .inputNeverAnswers ∧
      step (withPorts (core 0x3000 0xF021) [] [none]) = .fault .outputNeverAnswers ∧
      (withPorts State.reset [none] []).ports.inputAnswer = none ∧
      (withPorts State.reset [] [none]).ports.outputAnswer 0 = none ∧
      (putsString (pointing [some .ok, none]).mem ((pointing [some .ok, none]).reg .r0).toNat 2 ∧
        (pointing [some .ok, none]).ports.accepts 1 ∧
        (pointing [some .ok, none]).ports.outputAnswer 1 = none) ∧
      (putspString (pointingPacked (okThen 2 [none])).mem
          ((pointingPacked (okThen 2 [none])).reg .r0).toNat 3 ∧
        (pointingPacked (okThen 2 [none])).ports.accepts 2 ∧
        (pointingPacked (okThen 2 [none])).ports.outputAnswer 2 = none) ∧
      (0 < [(0x3F : Byte)].length ∧ (withPorts State.reset [] [none]).ports.accepts 0) ∧
      (withPorts State.reset [none] (okThen 1 [])).ports.accepts [(0x3F : Byte)].length ∧
      (withPorts State.reset [none] (okThen 1 [])).ports.inputAnswer = none ∧
      (withPorts State.reset [some (.byte 7)] (okThen 1 [none])).ports.accepts
        [(0x3F : Byte)].length ∧
      (withPorts State.reset [some (.byte 7)] (okThen 1 [none])).ports.inputAnswer =
        some (.byte 7) ∧
      (withPorts State.reset [some (.byte 7)] (okThen 1 [none])).ports.outputAnswer 1 = none :=
  ⟨rfl, rfl, rfl, rfl, ⟨by unfold putsString; decide, by unfold Ports.accepts; decide, rfl⟩,
    ⟨by unfold putspString; decide, by unfold Ports.accepts; decide, rfl⟩,
    ⟨by decide, by unfold Ports.accepts; decide⟩, by unfold Ports.accepts; decide, rfl,
    by unfold Ports.accepts; decide, rfl, rfl⟩

theorem witness_HaltedAndErrorAreSticky :
    (State.reset.setStatus .halted).status ≠ .running ∧
      (State.reset.raise .ioFailure).status ≠ .running ∧
      loadImage [7] 0xFFFF (State.reset.setStatus .halted) =
        .ok ((State.reset.setStatus .halted).store 0xFFFF 7) ∧
      hostSetPc 0xFFFF (State.reset.raise .ioFailure) =
        .ok ((State.reset.raise .ioFailure).setPc 0xFFFF) :=
  ⟨by decide, by decide, rfl, rfl⟩

theorem witness_ErrorLeavesTheStateAfterTheFetch :
    (∃ t, step (core 0xFFFF 0x1048) = .next t ∧ t.status = .error .invalidOpcode) ∧
      (∃ t, step (unterminated 0xF022) = .next t ∧ t.status = .error .outOfBounds) ∧
      ∃ t, step getFailing = .next t ∧ t.status = .error .ioFailure :=
  ⟨endsAs_next (by decide), endsAs_next (by decide), endsAs_next (by decide)⟩

theorem witness_OtherStatusesComeFromTheirTraps :
    (Fetches (unterminated 0xF024) 0xF024 ∧
      ∃ t, step (unterminated 0xF024) = .next t ∧ t.status = .error .outOfBounds) ∧
    (Fetches sendFailing 0xF021 ∧ ∃ t, step sendFailing = .next t ∧ t.status = .error .ioFailure) ∧
    Fetches (core 0x3000 0xF025) 0xF025 ∧
      ∃ t, step (core 0x3000 0xF025) = .next t ∧ t.status = .halted :=
  ⟨⟨by unfold Fetches; decide, endsAs_next (by decide)⟩,
    ⟨by unfold Fetches; decide, endsAs_next (by decide)⟩,
    by unfold Fetches; decide, endsAs_next (by decide)⟩

theorem witness_RunEndsHaltedOrInError :
    (∃ t, hostRun 2 (core 0x3000 0x107D [] [(0x3001, 0xF025)]) = .next (some (.halted, t))) ∧
      ∃ t, hostRun 1 (core 0x3000 0x8000) = .next (some (.error .invalidOpcode, t)) :=
  ⟨⟨_, rfl⟩, ⟨_, rfl⟩⟩

theorem witness_RegistersChangeOnlyAtTheDestination :
    (∃ t, exec (.add .r0 .r1 .r2) (core 0x3000 0) = .next t) ∧
      flaggedDest (.add .r0 .r1 .r2) ≠ some .r1 ∧ plainDest (.add .r0 .r1 .r2) ≠ some .r1 ∧
      (∃ t, exec .getc getting = .next t) ∧ plainDest .getc ≠ some .r7 :=
  ⟨runs_next (by decide), by decide, by decide, runs_next (by decide), by decide⟩

theorem witness_OnlyFlaggedWritersChangeCond :
    (∃ t, exec (.ld .r0 1) (core 0x3000 0) = .next t) ∧ flaggedDest (.ld .r0 1) = some .r0 ∧
      (∃ t, exec .getc getting = .next t) ∧ flaggedDest .getc = none ∧
      (∃ t, loadImage [7] 0xFFFF State.reset = .ok t) ∧
      ∃ t, hostSetPc 0xFFFF State.reset = .ok t :=
  ⟨runs_next (by decide), rfl, runs_next (by decide), rfl, ⟨_, rfl⟩, ⟨_, rfl⟩⟩

theorem witness_OnlyBrReadsCond :
    (∀ n z p off, Instr.ld .r0 1 ≠ .br n z p off) ∧
      (∃ t, exec (.ld .r0 1) (core 0x3000 0) = .next t) ∧ State.reset.cond = 0b000 :=
  ⟨fun _ _ _ _ h => (nomatch h), runs_next (by decide), rfl⟩

theorem witness_MemoryChangesOnlyAtTheStoreAddress :
    (core 0x3001 7).mem.wf = true ∧ storeTarget (core 0x3001 7) (.st .r1 3) = some (0x3004, .r1) ∧
      (∃ t, exec (.st .r1 3) (core 0x3001 7) = .next t) ∧
      storeTarget (core 0x3001 7) (.lea .r0 3) = none ∧
      ∃ t, exec (.lea .r0 3) (core 0x3001 7) = .next t :=
  ⟨by decide, by decide, runs_next (by decide), rfl, runs_next (by decide)⟩

theorem witness_OnlyControlTransfersWritePc :
    writesPc .getc = false ∧ (∃ t, exec .getc getting = .next t) ∧ (core 0xFFFF 7).pc = 0xFFFF :=
  ⟨rfl, runs_next (by decide), rfl⟩

theorem witness_OnlyTrapsUseThePorts :
    Instr.opcode (.st .r1 3) ≠ .trap ∧ ∃ t, exec (.st .r1 3) getting = .next t :=
  ⟨by decide, runs_next (by decide)⟩

theorem witness_AcceptedBytesAreNotTakenBack :
    (∃ t, step sending = .next t) ∧ ∃ t, step (pointing [some .ok, some .fail]) = .next t :=
  ⟨(endsAs_next (st := .running) (by decide)).imp fun _ h => h.1,
    (endsAs_next (st := .error .ioFailure) (by decide)).imp fun _ h => h.1⟩

theorem witness_SetAndFlag :
    ((0x8000 : Word) ≠ 0x0000 ∧ (0x8000 : Word).getLsbD 15 = true) ∧
      (0x7FFF : Word) ≠ 0x0000 ∧ (0x7FFF : Word).getLsbD 15 = false := by decide

theorem witness_AddRegister :
    Fetches (core 0x3000 0x1048) 0x1048 ∧ (0x1048 : Word).extractLsb' 12 4 = 0x1 ∧
      (0x1048 : Word).getLsbD 5 = false ∧ (0x1048 : Word).extractLsb' 3 2 ≠ 0b00 := by
  unfold Fetches; decide

theorem witness_AndRegister :
    Fetches (core 0x3000 0x5050) 0x5050 ∧ (0x5050 : Word).extractLsb' 12 4 = 0x5 ∧
      (0x5050 : Word).getLsbD 5 = false ∧ (0x5050 : Word).extractLsb' 3 2 ≠ 0b00 := by
  unfold Fetches; decide

theorem witness_NotRegister :
    Fetches (core 0x3000 0x903E) 0x903E ∧ (0x903E : Word).extractLsb' 12 4 = 0x9 ∧
      (0x903E : Word).extractLsb' 0 6 ≠ 0b111111 := by
  unfold Fetches; decide

/-- For `StorePcRelative`, `StoreIndirect` and `StoreBasePlusOffset`. -/
theorem witness_Stores :
    (core 0x3000 7 [(.r1, 0)] [(0xFFFF, 1)]).mem.wf = true ∧ State.reset.mem.wf = true := by decide

/-- Vector S4. -/
def s4 : State := core 0x3001 7 [(.r1, 0x8421)] [(0x3003, 0x5000)] 0b001

theorem witness_StoreIndirectThenLoadIndirect :
    s4.mem.wf = true ∧ exec (.sti .r1 2) s4 = .next (s4.store 0x5000 0x8421) ∧
      ((s4.store 0x5000 0x8421).setPc 0x3002).pcRelative (1 : BitVec 9) =
        s4.pcRelative (2 : BitVec 9) ∧
      s4.load (s4.pcRelative (2 : BitVec 9)) ≠ s4.pcRelative (2 : BitVec 9) :=
  ⟨by decide, rfl, by decide, by decide⟩

/-- ST over the next instruction (R145). -/
theorem witness_StoresAreSeenByTheNextFetch :
    (core 0x3000 0x3200 [(.r1, 0xF025)]).mem.wf = true ∧
      (core 0x3000 0x3200 [(.r1, 0xF025)]).status = .running ∧
      decode (core 0x3000 0x3200 [(.r1, 0xF025)]).fetchWord = .ok (.st .r1 0) ∧
      storeTarget (core 0x3000 0x3200 [(.r1, 0xF025)]).advance (.st .r1 0) = some (0x3001, .r1) ∧
      ∃ t, step (core 0x3000 0x3200 [(.r1, 0xF025)]) = .next t ∧ t.pc = 0x3001 :=
  ⟨by decide, rfl, decodesTo_ok (by decide), by decide, ⟨_, rfl, by decide⟩⟩

theorem witness_ConditionalBranch :
    ((false && State.reset.cond.getLsbD 2 || true && (State.reset.setCond 0b010).cond.getLsbD 1 ||
      false && State.reset.cond.getLsbD 0) = true) ∧
    ((true && State.reset.cond.getLsbD 2 || true && State.reset.cond.getLsbD 1 ||
      true && State.reset.cond.getLsbD 0) = false) := by decide

theorem witness_JumpThroughRegister :
    Fetches (core 0x3000 0xC280) 0xC280 ∧ Fetches (core 0x3000 0xC081) 0xC081 ∧
      (0xC280 : Word).extractLsb' 12 4 = 0xC ∧ (0xC280 : Word).extractLsb' 9 3 ≠ 0b000 ∧
      (0xC081 : Word).extractLsb' 12 4 = 0xC ∧ (0xC081 : Word).extractLsb' 0 6 ≠ 0b000000 := by
  unfold Fetches; decide

theorem witness_CallThroughRegister :
    Fetches (core 0x3000 0x4280) 0x4280 ∧ Fetches (core 0x3000 0x4081) 0x4081 ∧
      (0x4280 : Word).extractLsb' 12 4 = 0x4 ∧ (0x4280 : Word).getLsbD 11 = false ∧
      (0x4280 : Word).extractLsb' 9 2 ≠ 0b00 ∧ (0x4081 : Word).getLsbD 11 = false ∧
      (0x4081 : Word).extractLsb' 0 6 ≠ 0b000000 := by
  unfold Fetches; decide

/-- A JSR and a JSRR at 0x3000, and a RET that finds R7 as they left it. -/
theorem witness_ReturnResumesAfterTheCall :
    (core 0x3000 0x4803).status = .running ∧
      decode (core 0x3000 0x4803).fetchWord = .ok (.jsr 3) ∧
      (∃ t, step (core 0x3000 0x4803) = .next t ∧
        (core 0x3004 0xC1C0 [(.r7, 0x3001)]).reg .r7 = t.reg .r7) ∧
      decode (core 0x3000 0x4080).fetchWord = .ok (.jsrr .r2) ∧
      (∃ t, step (core 0x3000 0x4080) = .next t ∧
        (core 0x3004 0xC1C0 [(.r7, 0x3001)]).reg .r7 = t.reg .r7) ∧
      (core 0x3004 0xC1C0 [(.r7, 0x3001)]).status = .running ∧
      decode (core 0x3004 0xC1C0 [(.r7, 0x3001)]).fetchWord = .ok .ret :=
  ⟨rfl, decodesTo_ok (by decide), ⟨_, rfl, rfl⟩, decodesTo_ok (by decide), ⟨_, rfl, rfl⟩, rfl,
    decodesTo_ok (by decide)⟩

theorem witness_TrapSelectsItsPrimitive :
    (0x1F : BitVec 8) < 0x20 ∧ (0x25 : BitVec 8) < 0x26 ∧ Instr.opcode .getc = .trap ∧
      (∃ t, exec .getc getting = .next t) ∧ (∃ t, exec .halt State.reset = .next t) ∧
      Fetches (core 0x3000 0xF125) 0xF125 ∧ (0xF125 : Word).extractLsb' 12 4 = 0xF ∧
      (0xF125 : Word).extractLsb' 8 4 ≠ 0b0000 :=
  ⟨by decide, by decide, rfl, runs_next (by decide), runs_next (by decide),
    by unfold Fetches; decide, by decide, by decide⟩

/-- A scripted byte, a scripted `Fail`, and past the script the free values, whatever they are: the
first and, once it is taken, the next. -/
theorem witness_GetcReadsOneByte :
    getting.ports.inputAnswer = some (.byte 0x41) ∧ getFailing.ports.inputAnswer = some .fail ∧
      State.reset.ports.inputAnswer = some (Config.freeInput 0) ∧
      State.reset.ports.afterInput.inputAnswer = some (Config.freeInput 1) :=
  ⟨rfl, rfl, rfl, rfl⟩

theorem witness_OutWritesTheLowByte :
    sending.ports.outputAnswer 0 = some .ok ∧ sendFailing.ports.outputAnswer 0 = some .fail ∧
      State.reset.ports.outputAnswer 0 = some (Config.freeOutput 0) ∧
      (State.reset.ports.afterOutputs 1 [0x41]).outputAnswer 0 = some (Config.freeOutput 1) :=
  ⟨rfl, rfl, rfl, rfl⟩

theorem witness_PutsWritesTheString :
    (putsString (pointing (okThen 2 [])).mem ((pointing (okThen 2 [])).reg .r0).toNat 2 ∧
      (pointing (okThen 2 [])).ports.accepts 2) ∧
    (putsString (pointing (okThen 1 [some .fail])).mem
        ((pointing (okThen 1 [some .fail])).reg .r0).toNat 2 ∧
      (pointing (okThen 1 [some .fail])).ports.accepts 1 ∧
      (pointing (okThen 1 [some .fail])).ports.outputAnswer 1 = some .fail) ∧
    (putsString State.reset.mem (State.reset.reg .r0).toNat 0 ∧ State.reset.ports.accepts 0) ∧
    ∀ a : Nat, ((unterminated 0xF022).reg .r0).toNat ≤ a → a < 65536 →
      (unterminated 0xF022).mem.cellAt a ≠ 0x0000 := by
  refine ⟨⟨by unfold putsString; decide, by unfold Ports.accepts; decide⟩,
    ⟨by unfold putsString; decide, by unfold Ports.accepts; decide, rfl⟩,
    ⟨by unfold putsString; decide, by unfold Ports.accepts; decide⟩, fun a ha hb => ?_⟩
  obtain rfl : a = 65535 := by
    have : ((unterminated 0xF022).reg .r0).toNat = 65535 := by decide
    omega
  decide

theorem witness_PutspWritesThePackedString :
    (putspString (pointingPacked (okThen 3 [])).mem
        ((pointingPacked (okThen 3 [])).reg .r0).toNat 3 ∧
      (pointingPacked (okThen 3 [])).ports.accepts 3) ∧
    (putspString (pointingPacked (okThen 2 [some .fail])).mem
        ((pointingPacked (okThen 2 [some .fail])).reg .r0).toNat 3 ∧
      (pointingPacked (okThen 2 [some .fail])).ports.accepts 2 ∧
      (pointingPacked (okThen 2 [some .fail])).ports.outputAnswer 2 = some .fail) ∧
    (putspString State.reset.mem (State.reset.reg .r0).toNat 0 ∧ State.reset.ports.accepts 0) ∧
    ∀ j : Nat, ((unterminated 0xF024).reg .r0).toNat + j / 2 < 65536 →
      putspByte (unterminated 0xF024).mem ((unterminated 0xF024).reg .r0).toNat j ≠ 0x00 := by
  refine ⟨⟨by unfold putspString; decide, by unfold Ports.accepts; decide⟩,
    ⟨by unfold putspString; decide, by unfold Ports.accepts; decide, rfl⟩,
    ⟨by unfold putspString; decide, by unfold Ports.accepts; decide⟩, fun j hj => ?_⟩
  have h : ((unterminated 0xF024).reg .r0).toNat = 65535 := by decide
  obtain rfl | rfl : j = 0 ∨ j = 1 := by omega
  · decide
  · decide

theorem witness_InPromptsReadsAndEchoes :
    ((withPorts State.reset [some (.byte 0x7A)]
        (okThen (Config.inPrompt.length + 1) [])).ports.accepts (Config.inPrompt.length + 1) ∧
      (withPorts State.reset [some (.byte 0x7A)]
        (okThen (Config.inPrompt.length + 1) [])).ports.inputAnswer = some (.byte 0x7A)) ∧
    (0 < [(0x3F : Byte)].length ∧ (withPorts State.reset [] [some .fail]).ports.accepts 0 ∧
      (withPorts State.reset [] [some .fail]).ports.outputAnswer 0 = some .fail) ∧
    ((withPorts State.reset [some .fail] (okThen 1 [])).ports.accepts [(0x3F : Byte)].length ∧
      (withPorts State.reset [some .fail] (okThen 1 [])).ports.inputAnswer = some .fail) ∧
    (withPorts State.reset [some (.byte 0x7A)] (okThen 1 [some .fail])).ports.accepts
        [(0x3F : Byte)].length ∧
      (withPorts State.reset [some (.byte 0x7A)] (okThen 1 [some .fail])).ports.inputAnswer =
        some (.byte 0x7A) ∧
      (withPorts State.reset [some (.byte 0x7A)] (okThen 1 [some .fail])).ports.outputAnswer 1 =
        some .fail := by
  refine ⟨⟨fun k hk => ?_, rfl⟩, ⟨by decide, by unfold Ports.accepts; decide, rfl⟩,
    ⟨by unfold Ports.accepts; decide, rfl⟩, by unfold Ports.accepts; decide, rfl, rfl⟩
  simp [Ports.outputAnswer, withPorts, State.setPorts, okThen, hk]

theorem witness_HaltEndsTheRun : Fetches (core 0x3000 0xF025) 0xF025 := by
  unfold Fetches; decide

theorem witness_ReservedOpcodesRaiseInvalidOpcode :
    Fetches (core 0x3000 0x8000) 0x8000 ∧ (0x8000 : Word).extractLsb' 12 4 = 0x8 ∧
      Fetches (core 0x3000 0xDFFF) 0xDFFF ∧ (0xDFFF : Word).extractLsb' 12 4 = 0xD := by
  unfold Fetches; decide

theorem witness_LoadImageCopiesTheWords :
    65535 + [(7 : Word)].length ≤ 65536 ∧ State.reset.mem.wf = true ∧
      65536 < 65535 + [(7 : Word), 8].length := by decide

theorem witness_SetPcChecksItsAddress : 65535 < 65536 ∧ 65536 ≤ 65536 := by decide

theorem witness_LabelOffsetsReachTheirLabels :
    9 ≤ 16 ∧ labelOffset 9 0x3100 0x3000 = some 255 ∧ labelOffset 9 0x3101 0x3000 = none := by
  decide

end Sys2Proof.Tests
end

section
/-! SUPPORT. Extension keeps the field's value (00_scope.md R10, R11). -/

namespace Sys2Proof.Machine

/-- R10: sign extension to a word keeps the signed value of a field no wider than a word. -/
theorem sext_toInt {n : Nat} (v : BitVec n) (h : n ≤ 16) : (sext v).toInt = v.toInt := by
  rw [sext_eq_signExtend, BitVec.toInt_signExtend_of_le h]

/-- Settles O7: the signed half through `signExtend`, the unsigned half because the field's value
fits a word. -/
theorem extensionKeepsTheValue : Obligations.ExtensionKeepsTheValue := by
  unfold Obligations.ExtensionKeepsTheValue
  intro n v h
  exact ⟨sext_toInt v h, zext_toNat v h⟩

end Sys2Proof.Machine
end

section
/-! SUPPORT. Frames of the execute phase (R22, R24, R27), each read off `exec_effect`, and the
statements about what an instruction may write. -/

namespace Sys2Proof.Machine

/-! ### What a TRAP or a reserved opcode leaves -/

/-- R192: no trap writes `pc`. -/
theorem TrapEffect.pc_eq {i : Instr} {s t : State} (h : TrapEffect i s t) : t.pc = s.pc := by
  cases h <;> rfl

/-- R192: no trap writes COND. -/
theorem TrapEffect.cond_eq {i : Instr} {s t : State} (h : TrapEffect i s t) : t.cond = s.cond := by
  cases h <;> rfl

/-- R192: no trap writes memory. -/
theorem TrapEffect.mem_eq {i : Instr} {s t : State} (h : TrapEffect i s t) : t.mem = s.mem := by
  cases h <;> rfl

/-- R193, R197: a trap writes no register but the R0 of a primitive that reads a byte. -/
theorem TrapEffect.reg_eq {i : Instr} {s t : State} {r : Reg} (h : TrapEffect i s t)
    (hr : plainDest i ≠ some r) : t.reg r = s.reg r := by
  cases h with
  | continued => rfl
  | gotByte p b hp hd =>
    have hne : r ≠ .r0 := fun he => hr (he ▸ hd)
    exact Regs.get_set_other s.regs (zext b) hne
  | failed => rfl
  | halted => rfl

/-! ### What an execute phase leaves -/

/-- R22, R27: a register that is no destination of the instruction is as before. -/
theorem ExecEffect.reg_eq {i : Instr} {s t : State} {r : Reg} (h : ExecEffect i s t)
    (hf : flaggedDest i ≠ some r) (hp : plainDest i ≠ some r) : t.reg r = s.reg r := by
  cases h with
  | flagged q v hd =>
    have hne : r ≠ q := fun he => hf (he ▸ hd)
    exact Regs.get_set_other s.regs v hne
  | stored => rfl
  | jumped => rfl
  | called target hw hd =>
    have hne : r ≠ .r7 := fun he => hp (he ▸ hd)
    exact Regs.get_set_other s.regs s.pc hne
  | trapped _ _ ht => exact ht.reg_eq hp

/-- R24: an instruction that is no control transfer leaves the incremented `pc`. -/
theorem ExecEffect.pc_eq {i : Instr} {s t : State} (h : ExecEffect i s t)
    (hi : writesPc i = false) : t.pc = s.pc := by
  cases h with
  | flagged => rfl
  | stored => rfl
  | jumped _ hw => simp [hi] at hw
  | called _ hw => simp [hi] at hw
  | trapped _ _ ht => exact ht.pc_eq

/-- R27: an instruction that is no flagged writer leaves COND. -/
theorem ExecEffect.cond_eq {i : Instr} {s t : State} (h : ExecEffect i s t)
    (hi : flaggedDest i = none) : t.cond = s.cond := by
  cases h with
  | flagged _ _ hd => simp [hi] at hd
  | stored => rfl
  | jumped => rfl
  | called => rfl
  | trapped _ _ ht => exact ht.cond_eq

/-- Log entry 1: whatever the instruction, a canonical memory stays canonical. -/
theorem ExecEffect.mem_wf {i : Instr} {s t : State} (h : ExecEffect i s t)
    (hs : s.mem.wf = true) : t.mem.wf = true := by
  cases h with
  | flagged => exact hs
  | stored a r => exact State.store_wf hs a (s.reg r)
  | jumped => exact hs
  | called => exact hs
  | trapped _ _ ht => exact ht.mem_eq ▸ hs

/-- R27, R28: a flagged writer is a flagged write of one value, whatever COND held before. -/
theorem exec_of_flaggedDest {i : Instr} {dr : Reg} (hi : flaggedDest i = some dr) (s : State) :
    ∃ v, ∀ c, exec i (s.setCond c) = .next (s.setRegFlagged dr v) := by
  cases i with
  | add _ sr1 sr2 => cases hi; exact ⟨s.reg sr1 + s.reg sr2, fun _ => rfl⟩
  | addi _ sr1 imm5 => cases hi; exact ⟨s.reg sr1 + sext imm5, fun _ => rfl⟩
  | and _ sr1 sr2 => cases hi; exact ⟨s.reg sr1 &&& s.reg sr2, fun _ => rfl⟩
  | andi _ sr1 imm5 => cases hi; exact ⟨s.reg sr1 &&& sext imm5, fun _ => rfl⟩
  | not _ sr => cases hi; exact ⟨~~~ s.reg sr, fun _ => rfl⟩
  | ld _ off => cases hi; exact ⟨s.load (s.pcRelative off), fun _ => rfl⟩
  | ldi _ off => cases hi; exact ⟨s.load (s.indirect off), fun _ => rfl⟩
  | ldr _ baseR off => cases hi; exact ⟨s.load (s.basePlusOffset baseR off), fun _ => rfl⟩
  | lea _ off => cases hi; exact ⟨s.pcRelative off, fun _ => rfl⟩
  | _ => cases hi

/-- R26, R27: a flagged writer leaves COND as the flag of the value in its destination. -/
theorem exec_cond_of_flaggedDest {i : Instr} {s t : State} {dr : Reg}
    (hi : flaggedDest i = some dr) (h : exec i s = .next t) : t.cond = condOf (t.reg dr) := by
  obtain ⟨v, hv⟩ := exec_of_flaggedDest hi s
  have heq : exec i s = .next (s.setRegFlagged dr v) := hv s.cond
  rw [heq] at h
  cases h
  obtain ⟨hreg, hcond, -⟩ := setRegFlagged_spec s dr v
  rw [hreg, hcond]

/-- R282: an image that loads changes the memory alone. -/
theorem loadImage_ok {ws : List Word} {o : Nat} {s t : State} (h : loadImage ws o s = .ok t) :
    o + ws.length ≤ memorySize ∧ t = s.setMem (copyWords s.mem o ws) := by
  unfold loadImage at h
  split at h
  · next ho => cases h; exact ⟨ho, rfl⟩
  · cases h

/-- R283: a `set_pc` that succeeds changes `pc` alone. -/
theorem hostSetPc_ok {a : Nat} {s t : State} (h : hostSetPc a s = .ok t) :
    a < memorySize ∧ t = s.setPc (BitVec.ofNat 16 a) := by
  unfold hostSetPc at h
  split at h
  · next ha => cases h; exact ⟨ha, rfl⟩
  · cases h

/-! ### The statements -/

/-- Settles O22: every effect of an execute phase writes registers only at its destination. -/
theorem registersChangeOnlyAtTheDestination : Obligations.RegistersChangeOnlyAtTheDestination := by
  unfold Obligations.RegistersChangeOnlyAtTheDestination
  intro i s t r h hf hp
  exact (exec_effect h).reg_eq hf hp

/-- Settles O23: a flagged writer is one flagged write, and no other effect writes COND. -/
theorem onlyFlaggedWritersChangeCond : Obligations.OnlyFlaggedWritersChangeCond := by
  unfold Obligations.OnlyFlaggedWritersChangeCond
  refine ⟨fun i s t h => ⟨fun dr hi => exec_cond_of_flaggedDest hi h,
    (exec_effect h).cond_eq⟩, fun s t ws o h => ?_, fun s t a h => ?_⟩
  · obtain ⟨-, rfl⟩ := loadImage_ok h
    rfl
  · obtain ⟨-, rfl⟩ := hostSetPc_ok h
    rfl

/-- Settles O26: the effects that write `pc` belong to the control transfers alone. -/
theorem onlyControlTransfersWritePc : Obligations.OnlyControlTransfersWritePc := by
  unfold Obligations.OnlyControlTransfersWritePc
  refine ⟨fun i s t hi h => (exec_effect h).pc_eq hi, fun s hs => ?_⟩
  rw [State.advance_pc, hs]
  rfl

end Sys2Proof.Machine
end

section
/-! SUPPORT. What every step keeps (R25, log entry 1) and what holds at reset (R33), with the
statements about both. -/

namespace Sys2Proof.Machine

/-- R80, R92, R244: a property that the fetch increment, an error and every execute phase keep is
kept by every step. -/
theorem step_keeps {P : State → Prop} (hadvance : ∀ s, P s → P s.advance)
    (hraise : ∀ s k, P s → P (s.raise k))
    (hexec : ∀ i s t, exec i s = .next t → P s → P t) {s t : State} (hs : P s)
    (h : step s = .next t) : P t := by
  obtain ⟨-, rfl⟩ | ⟨-, -, rfl⟩ | ⟨-, i, -, hi, -⟩ := step_next_cases h
  · exact hs
  · exact hraise _ _ (hadvance _ hs)
  · exact hexec i _ t hi (hadvance _ hs)

/-- R25, R27: an execute phase leaves COND, or leaves exactly one flag set. -/
theorem exec_cond_cases {i : Instr} {s t : State} (h : exec i s = .next t) :
    t.cond = s.cond ∨ oneFlag t.cond := by
  cases hi : flaggedDest i with
  | none => exact .inl ((exec_effect h).cond_eq hi)
  | some dr => exact .inr (exec_cond_of_flaggedDest hi h ▸ condOf_oneFlag _)

/-- R25, R27: a step leaves COND, or leaves exactly one flag set. -/
theorem step_cond_cases {s t : State} (h : step s = .next t) :
    t.cond = s.cond ∨ oneFlag t.cond := by
  refine step_keeps (P := fun u => u.cond = s.cond ∨ oneFlag u.cond) (fun _ hu => hu)
    (fun _ _ hu => hu) (fun i u v hi hu => ?_) (.inl rfl) h
  rcases exec_cond_cases hi with heq | hone
  · exact heq ▸ hu
  · exact .inr hone

theorem step_keeps_oneFlag {s t : State} (hs : oneFlag s.cond) (h : step s = .next t) :
    oneFlag t.cond := by
  rcases step_cond_cases h with heq | hone
  · exact heq ▸ hs
  · exact hone

theorem step_keeps_condLegal {s t : State} (hs : condLegal s.cond = true) (h : step s = .next t) :
    condLegal t.cond = true := by
  rcases step_cond_cases h with heq | hone
  · exact heq ▸ hs
  · exact (condLegal_iff _).2 (.inr hone)

theorem step_keeps_mem_wf {s t : State} (hs : s.mem.wf = true) (h : step s = .next t) :
    t.mem.wf = true :=
  step_keeps (P := fun s => s.mem.wf = true) (fun _ hs => hs) (fun _ _ hs => hs)
    (fun _ _ _ hi hs => (exec_effect hi).mem_wf hs) hs h

/-- R33: no register holds anything at reset. -/
theorem reset_reg (r : Reg) : State.reset.reg r = 0x0000 := by cases r <;> rfl

/-- Settles O13: a step keeps the memory canonical and COND legal. -/
theorem stepKeepsTheInvariant : Obligations.StepKeepsTheInvariant := by
  unfold Obligations.StepKeepsTheInvariant
  rintro s t ⟨hmem, hcond⟩ h
  exact ⟨step_keeps_mem_wf hmem h, step_keeps_condLegal hcond h⟩

/-- Settles O14: a step leaves COND or sets exactly one flag, and a flagged write sets one. -/
theorem exactlyOneFlagAfterAFlaggedWrite : Obligations.ExactlyOneFlagAfterAFlaggedWrite := by
  unfold Obligations.ExactlyOneFlagAfterAFlaggedWrite
  exact ⟨fun _ _ => step_keeps_oneFlag, fun _ _ v => condOf_oneFlag v,
    fun _ _ => step_keeps_condLegal⟩

/-- Settles O11: field by field of the reset state. -/
theorem resetState : Obligations.ResetState := by
  unfold Obligations.ResetState
  exact ⟨reset_reg, rfl, rfl, Memory.cellAt_nil, rfl, rfl⟩

/-- Settles O12: at reset no cell is listed and no flag is set. -/
theorem resetMeetsTheInvariant : Obligations.ResetMeetsTheInvariant := by
  unfold Obligations.ResetMeetsTheInvariant
  exact ⟨rfl, (condLegal_iff _).2 (.inl rfl)⟩

end Sys2Proof.Machine
end

section
/-! SUPPORT. The three values of the flag update (R26), and the statement about it. -/

namespace Sys2Proof.Machine

theorem condOf_zero : condOf 0x0000 = 0b010 := rfl

theorem condOf_negative {v : Word} (h : v ≠ 0x0000) (hv : v.getLsbD 15 = true) :
    condOf v = 0b100 := by
  rw [condOf, if_neg h, if_pos hv, condNeg]

theorem condOf_positive {v : Word} (h : v ≠ 0x0000) (hv : v.getLsbD 15 = false) :
    condOf v = 0b001 := by
  rw [condOf, if_neg h, if_neg (Bool.eq_false_iff.1 hv), condPos]

/-- Settles O29: the register and the flag of a flagged write, the flag by its three cases. -/
theorem setAndFlag : Obligations.SetAndFlag := by
  unfold Obligations.SetAndFlag
  intro s r v
  obtain ⟨hreg, hcond, -⟩ := setRegFlagged_spec s r v
  rw [hcond]
  exact ⟨hreg, fun h => h ▸ condOf_zero, condOf_negative, condOf_positive⟩

end Sys2Proof.Machine
end

section
/-! SUPPORT. COND does not influence an execute phase that is no BR (R28): each meaning commutes
with a change of COND; and the statement. -/

namespace Sys2Proof.Machine

/-- The outcome with its next state, if it has one, changed by `f`. -/
def mapNext (f : State → State) :
    Host.Outcome State Fault Refusal → Host.Outcome State Fault Refusal
  | .next s => .next (f s)
  | .fault e => .fault e
  | .refused r => .refused r

@[simp] theorem mapNext_next (f : State → State) (s : State) :
    mapNext f (.next s) = .next (f s) := rfl

@[simp] theorem mapNext_fault (f : State → State) (e : Fault) :
    mapNext f (.fault e) = .fault e := rfl

/-! ### The ports -/

theorem State.takeInput_setCond (s : State) (c : BitVec 3) :
    (s.setCond c).takeInput = s.takeInput.map fun (r, s') => (r, s'.setCond c) := by
  rw [State.takeInput_eq, State.takeInput_eq, Option.map_map]
  rfl

theorem State.putByte_setCond (s : State) (b : Byte) (c : BitVec 3) :
    (s.setCond c).putByte b = (s.putByte b).map fun (r, s') => (r, s'.setCond c) := by
  rw [State.putByte_eq, State.putByte_eq, Option.map_map]
  rfl

theorem State.putBytes_setCond (s : State) (bs : List Byte) (c : BitVec 3) :
    (s.setCond c).putBytes bs = (s.putBytes bs).map fun (r, s') => (r, s'.setCond c) := by
  induction bs generalizing s with
  | nil => rfl
  | cons b bs ih =>
    rw [State.putBytes, State.putBytes, State.putByte_setCond]
    rcases s.putByte b with _ | ⟨_ | _, s'⟩
    · rfl
    · exact ih s'
    · rfl

/-! ### The trap primitives -/

theorem trapGetc_setCond (s : State) (c : BitVec 3) :
    trapGetc (s.setCond c) = mapNext (·.setCond c) (trapGetc s) := by
  rw [trapGetc, trapGetc, State.takeInput_setCond]
  rcases s.takeInput with _ | ⟨_ | _, s'⟩ <;> rfl

theorem writeOut_setCond (bs : List Byte) (s : State) (c : BitVec 3) :
    writeOut bs (s.setCond c) = mapNext (·.setCond c) (writeOut bs s) := by
  rw [writeOut, writeOut, State.putBytes_setCond]
  rcases s.putBytes bs with _ | ⟨_ | _, s'⟩ <;> rfl

theorem trapOut_setCond (s : State) (c : BitVec 3) :
    trapOut (s.setCond c) = mapNext (·.setCond c) (trapOut s) := by
  rw [trapOut_eq, trapOut_eq]
  exact writeOut_setCond _ s c

theorem writeWalked_setCond (walked : Except ErrorKind (List Byte)) (s : State) (c : BitVec 3) :
    writeWalked walked (s.setCond c) = mapNext (·.setCond c) (writeWalked walked s) := by
  cases walked with
  | error e => rfl
  | ok bs => exact writeOut_setCond bs s c

theorem trapPuts_setCond (s : State) (c : BitVec 3) :
    trapPuts (s.setCond c) = mapNext (·.setCond c) (trapPuts s) :=
  writeWalked_setCond _ s c

theorem trapPutsp_setCond (s : State) (c : BitVec 3) :
    trapPutsp (s.setCond c) = mapNext (·.setCond c) (trapPutsp s) :=
  writeWalked_setCond _ s c

theorem echoAndSet_setCond (b : Byte) (s : State) (c : BitVec 3) :
    echoAndSet b (s.setCond c) = mapNext (·.setCond c) (echoAndSet b s) := by
  rw [echoAndSet, echoAndSet, State.putByte_setCond]
  rcases s.putByte b with _ | ⟨_ | _, s'⟩ <;> rfl

theorem readAndEcho_setCond (s : State) (c : BitVec 3) :
    readAndEcho (s.setCond c) = mapNext (·.setCond c) (readAndEcho s) := by
  rw [readAndEcho, readAndEcho, State.takeInput_setCond]
  rcases s.takeInput with _ | ⟨b | _, s'⟩
  · rfl
  · exact echoAndSet_setCond b s' c
  · rfl

theorem trapInWith_setCond (prompt : List Byte) (s : State) (c : BitVec 3) :
    trapInWith prompt (s.setCond c) = mapNext (·.setCond c) (trapInWith prompt s) := by
  rw [trapInWith, trapInWith, State.putBytes_setCond]
  rcases s.putBytes prompt with _ | ⟨_ | _, s'⟩
  · rfl
  · exact readAndEcho_setCond s' c
  · rfl

theorem trapIn_setCond (s : State) (c : BitVec 3) :
    trapIn (s.setCond c) = mapNext (·.setCond c) (trapIn s) :=
  trapInWith_setCond _ s c

theorem trapDispatch_setCond (v : BitVec 8) (s : State) (c : BitVec 3) :
    trapDispatch v (s.setCond c) = mapNext (·.setCond c) (trapDispatch v s) := by
  simp only [trapDispatch, apply_ite (mapNext _), trapGetc_setCond, trapOut_setCond,
    trapPuts_setCond, trapIn_setCond, trapPutsp_setCond]
  rfl

/-! ### The statement -/

/-- R28: an instruction that is neither BR nor a flagged writer only carries COND along. -/
theorem exec_setCond {i : Instr} (hbr : ∀ n z p off, i ≠ .br n z p off)
    (hi : flaggedDest i = none) (s : State) (c : BitVec 3) :
    exec i (s.setCond c) = mapNext (·.setCond c) (exec i s) := by
  cases i with
  | br n z p off => exact absurd rfl (hbr n z p off)
  | add | addi | and | andi | not | ld | ldi | ldr | lea => cases hi
  | st | sti | str | jmp | ret | jsr | jsrr | rti | res | halt => rfl
  | getc => exact trapGetc_setCond s c
  | out => exact trapOut_setCond s c
  | puts => exact trapPuts_setCond s c
  | inChar => exact trapIn_setCond s c
  | putsp => exact trapPutsp_setCond s c
  | trap v => exact trapDispatch_setCond v s c

/-- R28, R170: while no flag is set a BR is not taken. -/
theorem execBr_of_noFlag {s : State} (hs : s.cond = 0b000) (n z p : Bool) (off : BitVec 9) :
    execBr n z p off s = .next s := by
  rw [execBr, condMatches_noFlag hs, if_neg (by decide)]

/-- Settles O24: a flagged writer overwrites COND with the same value whatever it held, and every
other instruction but BR commutes with a change of COND. -/
theorem onlyBrReadsCond : Obligations.OnlyBrReadsCond := by
  unfold Obligations.OnlyBrReadsCond
  refine ⟨fun i s t c hbr h => ?_, fun s n z p off hs => execBr_of_noFlag hs n z p off⟩
  cases hi : flaggedDest i with
  | none => rw [exec_setCond hbr hi, h, if_pos rfl, mapNext_next]
  | some dr =>
    obtain ⟨v, hv⟩ := exec_of_flaggedDest hi s
    have heq : exec i s = .next (s.setRegFlagged dr v) := hv s.cond
    rw [heq] at h
    cases h
    rw [hv c, if_neg (by simp)]
    rfl

end Sys2Proof.Machine
end

section
/-! SUPPORT. The Memory Unit on both sides of its bound (R51), when two canonical memories are equal
(log entry 1), what a store leaves in memory (R56, R63), and the statements about them. -/

namespace Sys2Proof.Machine

/-! ### The Memory Unit -/

theorem Memory.read_of_lt {a : Nat} (ha : a < memorySize) (m : Memory) :
    m.read a = .ok (m.cellAt a) := by
  rw [Memory.read, if_pos ha]

theorem Memory.read_of_ge {a : Nat} (ha : memorySize ≤ a) (m : Memory) :
    m.read a = .error .outOfBounds := by
  rw [Memory.read, if_neg (Nat.not_lt.2 ha)]

theorem Memory.write_of_lt {a : Nat} (ha : a < memorySize) (m : Memory) (v : Word) :
    m.write a v = .ok (m.setCell a v) := by
  rw [Memory.write, if_pos ha]

theorem Memory.write_of_ge {a : Nat} (ha : memorySize ≤ a) (m : Memory) (v : Word) :
    m.write a v = .error .outOfBounds := by
  rw [Memory.write, if_neg (Nat.not_lt.2 ha)]

/-- R51: a stored cell reads back. -/
theorem Memory.read_setCell_same {m : Memory} (h : m.wf = true) {a : Nat} (ha : a < memorySize)
    (v : Word) : (m.setCell a v).read a = .ok v := by
  rw [Memory.read_of_lt ha, Memory.cellAt_setCell h, if_pos rfl]

/-- R51: a store changes no other address, inside the bound or outside. -/
theorem Memory.read_setCell_other {m : Memory} (h : m.wf = true) {a b : Nat} (hb : b ≠ a)
    (v : Word) : (m.setCell a v).read b = m.read b := by
  rw [Memory.read, Memory.read, Memory.cellAt_setCell h, if_neg hb]

/-! ### Equal canonical memories -/

theorem Memory.cellAt_head (a : Nat) (v : Word) (m : Memory) :
    Memory.cellAt ((a, v) :: m) a = v := by
  rw [Memory.cellAt_cons, if_pos rfl]

/-- Below its first entry a canonical memory lists nothing. -/
theorem Memory.cellAt_of_lt_head {a : Nat} {v : Word} {m : Memory}
    (h : Memory.wf ((a, v) :: m) = true) {c : Nat} (hc : c < a) :
    Memory.cellAt ((a, v) :: m) c = Memory.unlisted := by
  obtain ⟨-, -, -, hall⟩ := (Memory.wf_cons_iff a v m).1 h
  refine Memory.cellAt_of_not_mem fun p hp => ?_
  rcases List.mem_cons.1 hp with rfl | hp
  · exact hc.ne'
  · exact (hc.trans (hall p hp)).ne'

/-- The rest of a canonical memory reads as the whole does, but for the first entry's address. -/
theorem Memory.cellAt_tail {a : Nat} {v : Word} {m : Memory}
    (h : Memory.wf ((a, v) :: m) = true) (c : Nat) :
    m.cellAt c = if c = a then Memory.unlisted else Memory.cellAt ((a, v) :: m) c := by
  obtain ⟨-, -, -, hall⟩ := (Memory.wf_cons_iff a v m).1 h
  split
  · next hc => exact Memory.cellAt_of_not_mem fun p hp => hc ▸ (hall p hp).ne'
  · next hc => rw [Memory.cellAt_cons, if_neg (Ne.symm hc)]

/-- A memory that reads as a canonical one lists no address before that one's first entry. -/
theorem Memory.head_le_of_cellAt_eq {a b : Nat} {v w : Word} {m m' : Memory}
    (h : Memory.wf ((a, v) :: m) = true) (h' : Memory.wf ((b, w) :: m') = true)
    (heq : ∀ c, Memory.cellAt ((a, v) :: m) c = Memory.cellAt ((b, w) :: m') c) : a ≤ b := by
  obtain ⟨hw, -⟩ := (Memory.wf_cons_iff b w m').1 h'
  by_contra hlt
  have hread := heq b
  rw [Memory.cellAt_of_lt_head h (Nat.lt_of_not_le hlt), Memory.cellAt_head] at hread
  exact hw hread.symm

/-- A canonical memory that reads as the empty one is empty. -/
theorem Memory.eq_nil_of_cellAt_eq {m : Memory} (h : m.wf = true)
    (heq : ∀ c, m.cellAt c = Memory.unlisted) : m = [] := by
  cases m with
  | nil => rfl
  | cons p m =>
    obtain ⟨a, v⟩ := p
    obtain ⟨hv, -⟩ := (Memory.wf_cons_iff a v m).1 h
    exact absurd (Memory.cellAt_head a v m ▸ heq a) hv

/-- Log entry 1: the canonical form holds one list for each content. -/
theorem Memory.eq_of_cellAt_eq {m m' : Memory} (h : m.wf = true) (h' : m'.wf = true)
    (heq : ∀ c, m.cellAt c = m'.cellAt c) : m = m' := by
  induction m generalizing m' with
  | nil => exact (Memory.eq_nil_of_cellAt_eq h' fun c => (heq c).symm).symm
  | cons p m ih =>
    obtain ⟨a, v⟩ := p
    cases m' with
    | nil => exact Memory.eq_nil_of_cellAt_eq h heq
    | cons q m' =>
      obtain ⟨b, w⟩ := q
      have hab : a = b := le_antisymm (Memory.head_le_of_cellAt_eq h h' heq)
        (Memory.head_le_of_cellAt_eq h' h fun c => (heq c).symm)
      subst hab
      have hvw : v = w := by
        have hread := heq a
        rwa [Memory.cellAt_head, Memory.cellAt_head] at hread
      obtain ⟨-, -, hm, -⟩ := (Memory.wf_cons_iff a v m).1 h
      obtain ⟨-, -, hm', -⟩ := (Memory.wf_cons_iff a w m').1 h'
      have htail : m = m' := ih hm hm' fun c => by
        rw [Memory.cellAt_tail h, Memory.cellAt_tail h', heq]
      rw [hvw, htail]

/-! ### What an execute phase does to memory -/

/-- R56: ST, STI and STR store one register at the computed address and do nothing else. -/
theorem exec_of_storeTarget {i : Instr} {s : State} {a : Word} {sr : Reg}
    (hi : storeTarget s i = some (a, sr)) : exec i s = .next (s.store a (s.reg sr)) := by
  cases i with
  | st | sti | str => cases hi; rfl
  | _ => cases hi

/-- R56: an instruction that is no store leaves memory. -/
theorem ExecEffect.mem_eq {i : Instr} {s t : State} (h : ExecEffect i s t)
    (hi : storeTarget s i = none) : t.mem = s.mem := by
  cases h with
  | flagged => rfl
  | stored _ _ hs => simp [hi] at hs
  | jumped => rfl
  | called => rfl
  | trapped _ _ ht => exact ht.mem_eq

/-- R12: a store leaves every cell but its own. -/
theorem State.cellAt_store_other {s : State} (h : s.mem.wf = true) {a : Word} {b : Nat}
    (hb : b ≠ a.toNat) (v : Word) : (s.store a v).mem.cellAt b = s.mem.cellAt b := by
  rw [State.store_mem, Memory.cellAt_setCell h, if_neg hb]

/-- R63: the cell that a fetch reads after a store at its address is the stored one. -/
theorem State.fetchWord_store {s : State} (h : s.mem.wf = true) (v : Word) :
    (s.store s.pc v).fetchWord = v := by
  rw [State.fetchWord, State.store_pc, State.load_store h, if_pos rfl]

/-! ### The statements -/

/-- Settles O9: the two sides of the bound, and a 16-bit `pc` is always below it. -/
theorem memoryUnitChecksBounds : Obligations.MemoryUnitChecksBounds := by
  unfold Obligations.MemoryUnitChecksBounds
  refine ⟨fun m a v => ⟨fun ha => ⟨Memory.read_of_ge ha m, Memory.write_of_ge ha m v⟩,
    fun ha => ⟨⟨_, Memory.read_of_lt ha m⟩, fun h => ?_⟩⟩,
    fun s => Memory.read_word s.mem s.pc⟩
  exact ⟨m.setCell a v, Memory.write_of_lt ha m v, Memory.read_setCell_same h ha v,
    fun b hb => Memory.read_setCell_other h hb v⟩

/-- Settles O10, by induction on one list and cases on the other: the first entries agree, and so
do the rests. -/
theorem memoriesThatReadAlikeAreEqual : Obligations.MemoriesThatReadAlikeAreEqual := by
  unfold Obligations.MemoriesThatReadAlikeAreEqual
  intro m m' h h' heq
  exact Memory.eq_of_cellAt_eq h h' heq

/-- Settles O25: a storing instruction is one store, and no other effect writes memory. -/
theorem memoryChangesOnlyAtTheStoreAddress : Obligations.MemoryChangesOnlyAtTheStoreAddress := by
  unfold Obligations.MemoryChangesOnlyAtTheStoreAddress
  refine fun i s t hwf h => ⟨fun a sr hi b hb => ?_, fun hi b => ?_⟩
  · rw [exec_of_storeTarget hi] at h
    cases h
    exact State.cellAt_store_other hwf hb (s.reg sr)
  · rw [(exec_effect h).mem_eq hi]

/-- Settles O43: the step is the store over the state after the increment, and a fetch at the
stored address reads the stored cell. -/
theorem storesAreSeenByTheNextFetch : Obligations.StoresAreSeenByTheNextFetch := by
  unfold Obligations.StoresAreSeenByTheNextFetch
  intro i s t a sr hwf hrun hdec hi
  have hstep : step s = .next (s.advance.store a (s.reg sr)) := by
    rw [step_of_decode hrun hdec, exec_of_storeTarget hi]
    rfl
  refine ⟨hstep, fun ht hpc => ?_⟩
  rw [hstep] at ht
  cases ht
  rw [State.store_pc] at hpc
  subst hpc
  exact State.fetchWord_store (s := s.advance) hwf (s.reg sr)

end Sys2Proof.Machine
end

section
/-! SUPPORT. Words as rows of fields (R85): a concatenation is a word exactly when each of its parts
is the cut of the word at that part's bits, one lemma per layout the encoder uses. -/

namespace Sys2Proof

/-- A cut is a concatenation when its two parts are. -/
theorem cut_eq_append_iff {n v u s : Nat} {w : BitVec n} {x : BitVec v} {y : BitVec u} :
    w.extractLsb' s (v + u) = x ++ y ↔ w.extractLsb' (s + u) v = x ∧ w.extractLsb' s u = y := by
  rw [← BitVec.extractLsb'_append_extractLsb'_eq_extractLsb' rfl]
  refine ⟨fun h => ⟨?_, ?_⟩, fun ⟨hx, hy⟩ => by rw [hx, hy]⟩
  · simpa only [BitVec.extractLsb'_append_eq_left] using congrArg (BitVec.extractLsb' u v) h
  · simpa only [BitVec.extractLsb'_append_eq_right] using congrArg (BitVec.extractLsb' 0 u) h

/-- Two cuts agree when their two parts do. -/
theorem cut_eq_cut_iff {n m v u s : Nat} {a : BitVec n} {b : BitVec m} :
    a.extractLsb' s (v + u) = b.extractLsb' s (v + u) ↔
      a.extractLsb' (s + u) v = b.extractLsb' (s + u) v ∧
        a.extractLsb' s u = b.extractLsb' s u := by
  rw [← BitVec.extractLsb'_append_extractLsb'_eq_extractLsb' (x := b) rfl, cut_eq_append_iff]

/-- A concatenation is a vector when its two parts are the vector's. -/
theorem append_eq_iff {v u : Nat} {w : BitVec (v + u)} {x : BitVec v} {y : BitVec u} :
    x ++ y = w ↔ w.extractLsb' u v = x ∧ w.extractLsb' 0 u = y := by
  have h := cut_eq_append_iff (s := 0) (w := w) (x := x) (y := y)
  rwa [cut_all, Nat.zero_add, eq_comm] at h

/-- A cut of one bit. -/
theorem cut_one_eq_iff {n i : Nat} {w : BitVec n} {b : Bool} :
    w.extractLsb' i 1 = BitVec.ofBool b ↔ w.getLsbD i = b := by
  constructor
  · intro h
    simpa using congrArg (·.getLsbD 0) h
  · intro h
    ext j hj
    obtain rfl : j = 0 := by omega
    simpa using h

theorem cut_one_eq_zero_iff {n i : Nat} {w : BitVec n} :
    w.extractLsb' i 1 = 0#1 ↔ w.getLsbD i = false := cut_one_eq_iff (b := false)

theorem cut_one_eq_one_iff {n i : Nat} {w : BitVec n} :
    w.extractLsb' i 1 = 1#1 ↔ w.getLsbD i = true := cut_one_eq_iff (b := true)

/-! ### The layouts of R85, named by the widths of their fields -/

section Layouts

variable {w : Word} {op : BitVec 4}

theorem append_4_12_eq_iff {x : BitVec 12} :
    op ++ x = w ↔ w.extractLsb' 12 4 = op ∧ w.extractLsb' 0 12 = x :=
  append_eq_iff (v := 4) (u := 12)

theorem append_4_1_11_eq_iff {m : BitVec 1} {x : BitVec 11} :
    op ++ m ++ x = w ↔
      (w.extractLsb' 12 4 = op ∧ w.extractLsb' 11 1 = m) ∧ w.extractLsb' 0 11 = x :=
  append_eq_iff.trans <| and_congr_left' cut_eq_append_iff

theorem append_4_3_9_eq_iff {d : BitVec 3} {x : BitVec 9} :
    op ++ d ++ x = w ↔
      (w.extractLsb' 12 4 = op ∧ w.extractLsb' 9 3 = d) ∧ w.extractLsb' 0 9 = x :=
  append_eq_iff.trans <| and_congr_left' cut_eq_append_iff

theorem append_4_4_8_eq_iff {y : BitVec 4} {x : BitVec 8} :
    op ++ y ++ x = w ↔
      (w.extractLsb' 12 4 = op ∧ w.extractLsb' 8 4 = y) ∧ w.extractLsb' 0 8 = x :=
  append_eq_iff.trans <| and_congr_left' cut_eq_append_iff

theorem append_4_3_3_6_eq_iff {d s : BitVec 3} {x : BitVec 6} :
    op ++ d ++ s ++ x = w ↔
      ((w.extractLsb' 12 4 = op ∧ w.extractLsb' 9 3 = d) ∧ w.extractLsb' 6 3 = s) ∧
        w.extractLsb' 0 6 = x :=
  append_eq_iff.trans <| and_congr_left' <| cut_eq_append_iff.trans <|
    and_congr_left' cut_eq_append_iff

theorem append_4_1_1_1_9_eq_iff {n z p : BitVec 1} {x : BitVec 9} :
    op ++ n ++ z ++ p ++ x = w ↔
      (((w.extractLsb' 12 4 = op ∧ w.extractLsb' 11 1 = n) ∧ w.extractLsb' 10 1 = z) ∧
        w.extractLsb' 9 1 = p) ∧ w.extractLsb' 0 9 = x :=
  append_eq_iff.trans <| and_congr_left' <| cut_eq_append_iff.trans <|
    and_congr_left' <| cut_eq_append_iff.trans <| and_congr_left' cut_eq_append_iff

theorem append_4_1_2_3_6_eq_iff {m : BitVec 1} {y : BitVec 2} {b : BitVec 3} {x : BitVec 6} :
    op ++ m ++ y ++ b ++ x = w ↔
      (((w.extractLsb' 12 4 = op ∧ w.extractLsb' 11 1 = m) ∧ w.extractLsb' 9 2 = y) ∧
        w.extractLsb' 6 3 = b) ∧ w.extractLsb' 0 6 = x :=
  append_eq_iff.trans <| and_congr_left' <| cut_eq_append_iff.trans <|
    and_congr_left' <| cut_eq_append_iff.trans <| and_congr_left' cut_eq_append_iff

theorem append_4_3_3_1_5_eq_iff {d s : BitVec 3} {m : BitVec 1} {x : BitVec 5} :
    op ++ d ++ s ++ m ++ x = w ↔
      (((w.extractLsb' 12 4 = op ∧ w.extractLsb' 9 3 = d) ∧ w.extractLsb' 6 3 = s) ∧
        w.extractLsb' 5 1 = m) ∧ w.extractLsb' 0 5 = x :=
  append_eq_iff.trans <| and_congr_left' <| cut_eq_append_iff.trans <|
    and_congr_left' <| cut_eq_append_iff.trans <| and_congr_left' cut_eq_append_iff

theorem append_4_3_3_1_2_3_eq_iff {d s t : BitVec 3} {m : BitVec 1} {y : BitVec 2} :
    op ++ d ++ s ++ m ++ y ++ t = w ↔
      ((((w.extractLsb' 12 4 = op ∧ w.extractLsb' 9 3 = d) ∧ w.extractLsb' 6 3 = s) ∧
        w.extractLsb' 5 1 = m) ∧ w.extractLsb' 3 2 = y) ∧ w.extractLsb' 0 3 = t :=
  append_eq_iff.trans <| and_congr_left' <| cut_eq_append_iff.trans <|
    and_congr_left' <| cut_eq_append_iff.trans <| and_congr_left' <|
    cut_eq_append_iff.trans <| and_congr_left' cut_eq_append_iff

end Layouts

end Sys2Proof
end

section
/-! SUPPORT. The decoder and the encoder are inverse (R84 to R96), and the statements about that. -/

namespace Sys2Proof

/-! ### Registers, variants and rows -/

theorem Reg.ofBits_eq_iff {b : BitVec 3} {r : Reg} : Reg.ofBits b = r ↔ b = r.bits := by
  constructor
  · rintro rfl; exact (Reg.bits_ofBits b).symm
  · rintro rfl; exact Reg.ofBits_bits r

theorem opcodeOf_eq_iff {w : Word} {o : Opcode} :
    opcodeOf w = o ↔ w.extractLsb' 12 4 = o.bits := by
  constructor
  · rintro rfl; exact (opcodeOf_bits w).symm
  · intro h; rw [opcodeOf_of_bits h, Opcode.ofBits_bits]

theorem jmpOfBase_opcode (b : Reg) : (jmpOfBase b).opcode = .jmp := by
  unfold jmpOfBase; split <;> rfl

theorem trapOfVector_opcode (v : BitVec 8) : (trapOfVector v).opcode = .trap := by
  unfold trapOfVector; split_ifs <;> rfl

/-- R84, R88: the mode bits and the exact rows choose between forms of one variant. -/
theorem instrOf_opcode (o : Opcode) (f : Fields) : (instrOf o f).opcode = o := by
  cases o with
  | add | and => cases h : f.mode5 <;> simp [instrOf, h, Instr.opcode]
  | jsr => cases h : f.mode11 <;> simp [instrOf, h, Instr.opcode]
  | jmp => exact jmpOfBase_opcode f.reg8_6
  | trap => exact trapOfVector_opcode f.trapvect8
  | _ => rfl

theorem jmpOfBase_eq_ret_iff {b : Reg} : jmpOfBase b = .ret ↔ b = .r7 := by
  simp [jmpOfBase]

/-- R171: the row of JMP has the bases RET leaves. -/
theorem jmpOfBase_eq_jmp_iff {b r : Reg} :
    jmpOfBase b = .jmp r ↔ Instr.jmpBaseOk r = true ∧ b = r := by
  constructor
  · intro h
    unfold jmpOfBase at h
    split at h
    · cases h
    · next hb => cases h; exact ⟨decide_eq_true hb, rfl⟩
  · rintro ⟨hr, rfl⟩
    exact if_neg (of_decide_eq_true hr)

/-- R192: the six exact rows, each with its own vector. -/
theorem trapOfVector_eq_row_iff {v : BitVec 8} :
    (trapOfVector v = .getc ↔ v = 0x20#8) ∧ (trapOfVector v = .out ↔ v = 0x21#8) ∧
    (trapOfVector v = .puts ↔ v = 0x22#8) ∧ (trapOfVector v = .inChar ↔ v = 0x23#8) ∧
    (trapOfVector v = .putsp ↔ v = 0x24#8) ∧ (trapOfVector v = .halt ↔ v = 0x25#8) := by
  unfold trapOfVector
  split_ifs <;> simp_all

/-- R192: the general row has the vectors the exact rows leave. -/
theorem trapOfVector_eq_trap_iff {v u : BitVec 8} :
    trapOfVector v = .trap u ↔ Instr.trapVectorOk u = true ∧ v = u := by
  unfold trapOfVector
  split_ifs <;> simp_all [Instr.trapVectorOk] <;> bv_omega

/-! ### The round trip -/

/-- R91: a word decodes to an instruction when it has the instruction's variant, its fixed bits hold
and its fields are the instruction's. -/
theorem decode_eq_ok_iff {w : Word} {i : Instr} :
    decode w = .ok i ↔
      opcodeOf w = i.opcode ∧ fixedBitsOk w = true ∧ instrOf i.opcode (fieldsOf w) = i := by
  constructor
  · intro h
    obtain ⟨hfix, rfl⟩ := decode_ok h
    rw [instrOf_opcode]
    exact ⟨rfl, hfix, rfl⟩
  · rintro ⟨hop, hfix, hi⟩
    rw [decode_of_fixedBitsOk hfix, hop, hi]

/-- R84: an encoded word has the instruction's own variant. -/
theorem opcodeOf_encode (i : Instr) : opcodeOf (encode i) = i.opcode := by
  cases i with
  | br => exact Laws.OpcodeField.br ..
  | add => exact Laws.OpcodeField.add ..
  | addi => exact Laws.OpcodeField.addi ..
  | ld => exact Laws.OpcodeField.ld ..
  | st => exact Laws.OpcodeField.st ..
  | jsr => exact Laws.OpcodeField.jsr ..
  | jsrr => exact Laws.OpcodeField.jsrr ..
  | and => exact Laws.OpcodeField.and ..
  | andi => exact Laws.OpcodeField.andi ..
  | ldr => exact Laws.OpcodeField.ldr ..
  | str => exact Laws.OpcodeField.str ..
  | rti => exact Laws.OpcodeField.rti ..
  | not => exact Laws.OpcodeField.not ..
  | ldi => exact Laws.OpcodeField.ldi ..
  | sti => exact Laws.OpcodeField.sti ..
  | jmp => exact Laws.OpcodeField.jmp ..
  | ret => exact Laws.OpcodeField.ret
  | res => exact Laws.OpcodeField.res ..
  | lea => exact Laws.OpcodeField.lea ..
  | getc => exact Laws.OpcodeField.getc
  | out => exact Laws.OpcodeField.out
  | puts => exact Laws.OpcodeField.puts
  | inChar => exact Laws.OpcodeField.inChar
  | putsp => exact Laws.OpcodeField.putsp
  | halt => exact Laws.OpcodeField.halt
  | trap => exact Laws.OpcodeField.trap ..

/-- R85: among the words of an instruction's variant, the one that reads as the instruction is its
encoding: both sides say the same of each field of the layout. A mode bit is split first, since it
chooses the layout. -/
theorem reads_iff_encode {w : Word} {i : Instr} (hop : opcodeOf w = i.opcode) :
    fixedBitsOk w = true ∧ instrOf i.opcode (fieldsOf w) = i ↔
      i.wellFormed = true ∧ encode i = w := by
  have hbits := opcodeOf_eq_iff.1 hop
  cases i
  case' br => rw [encode, append_4_1_1_1_9_eq_iff]
  case' ld | st | ldi | sti | lea => rw [encode, append_4_3_9_eq_iff]
  case' ldr | str | not | jmp | ret => rw [encode, append_4_3_3_6_eq_iff]
  case' rti | res => rw [encode, append_4_12_eq_iff]
  case' trap | getc | out | puts | inChar | putsp | halt => rw [encode, append_4_4_8_eq_iff]
  case' add | and => rw [encode, append_4_3_3_1_2_3_eq_iff]; cases hmode : w.getLsbD 5
  case' addi | andi => rw [encode, append_4_3_3_1_5_eq_iff]; cases hmode : w.getLsbD 5
  case' jsr => rw [encode, append_4_1_11_eq_iff]; cases hmode : w.getLsbD 11
  case' jsrr => rw [encode, append_4_1_2_3_6_eq_iff]; cases hmode : w.getLsbD 11
  all_goals
    simp [*, -BitVec.getLsbD_eq_getElem, Instr.opcode, Opcode.bits, Instr.wellFormed, fixedBitsOk,
      instrOf, fieldsOf, Reg.ofBits_eq_iff, cut_one_eq_iff, cut_one_eq_zero_iff,
      cut_one_eq_one_iff, jmpOfBase_eq_ret_iff, jmpOfBase_eq_jmp_iff, trapOfVector_eq_row_iff,
      trapOfVector_eq_trap_iff, and_assoc, and_left_comm, and_comm]

/-- R91, R94: a word decodes to an instruction exactly when the instruction is well-formed and the
word is its encoding. -/
theorem decode_eq_ok_iff_encode {w : Word} {i : Instr} :
    decode w = .ok i ↔ i.wellFormed = true ∧ encode i = w := by
  rw [decode_eq_ok_iff]
  by_cases hop : opcodeOf w = i.opcode
  · rw [← reads_iff_encode hop]
    exact and_iff_right hop
  · refine ⟨fun h => absurd h.1 hop, ?_⟩
    rintro ⟨-, rfl⟩
    exact absurd (opcodeOf_encode i) hop

/-- Settles O1: `decode_eq_ok_iff_encode`, from right to left. -/
theorem decodeOfEncodeIsTheInstruction : Obligations.DecodeOfEncodeIsTheInstruction := by
  unfold Obligations.DecodeOfEncodeIsTheInstruction
  exact fun i hi => decode_eq_ok_iff_encode.2 ⟨hi, rfl⟩

/-- Settles O2: `decode_eq_ok_iff_encode`, from left to right. -/
theorem encodeOfDecodeIsTheWord : Obligations.EncodeOfDecodeIsTheWord := by
  unfold Obligations.EncodeOfDecodeIsTheWord
  exact fun w i h => decode_eq_ok_iff_encode.1 h

/-- Settles O4: the encodings of the three instructions, written out, and RET is the jump through
R7. -/
theorem wordsOfTheSourceDecode : Obligations.WordsOfTheSourceDecode := by
  unfold Obligations.WordsOfTheSourceDecode
  exact ⟨decode_eq_ok_iff_encode.2 ⟨rfl, rfl⟩, rfl, decode_eq_ok_iff_encode.2 ⟨rfl, rfl⟩, rfl,
    decode_eq_ok_iff_encode.2 ⟨rfl, rfl⟩, rfl, fun _ => rfl⟩

end Sys2Proof
end

section
/-! SUPPORT. Which words decode, as rows of opcode_table.json and as R92 lists the fixed bits, and
the statements about both. -/

namespace Sys2Proof

theorem decodes_iff_fixedBitsOk {w : Word} :
    (∃ i, decode w = .ok i) ↔ fixedBitsOk w = true :=
  ⟨fun ⟨_, h⟩ => (decode_ok h).1, fun h => ⟨_, decode_of_fixedBitsOk h⟩⟩

/-! ### The rows of the table, on the common refinement of their masks -/

/-- Two words agree when they do on the parts that every mask of the table takes or leaves whole. -/
theorem word_eq_iff {a b : Word} :
    a = b ↔ ((((((a.extractLsb' 12 4 = b.extractLsb' 12 4 ∧
      a.extractLsb' 11 1 = b.extractLsb' 11 1) ∧ a.extractLsb' 9 2 = b.extractLsb' 9 2) ∧
      a.extractLsb' 8 1 = b.extractLsb' 8 1) ∧ a.extractLsb' 6 2 = b.extractLsb' 6 2) ∧
      a.extractLsb' 5 1 = b.extractLsb' 5 1) ∧ a.extractLsb' 3 2 = b.extractLsb' 3 2) ∧
      a.extractLsb' 0 3 = b.extractLsb' 0 3 := by
  conv_lhs => rw [← cut_all (x := a), ← cut_all (x := b)]
  rw [cut_eq_cut_iff (v := 13) (u := 3), cut_eq_cut_iff (v := 11) (u := 2),
    cut_eq_cut_iff (v := 10) (u := 1), cut_eq_cut_iff (v := 8) (u := 2),
    cut_eq_cut_iff (v := 7) (u := 1), cut_eq_cut_iff (v := 5) (u := 2),
    cut_eq_cut_iff (v := 4) (u := 1)]

theorem cut_9_3_eq_zero_iff {w : Word} :
    w.extractLsb' 9 3 = 0#3 ↔ w.extractLsb' 11 1 = 0#1 ∧ w.extractLsb' 9 2 = 0#2 :=
  cut_eq_append_iff (x := 0#1) (y := 0#2)

theorem cut_8_4_eq_zero_iff {w : Word} :
    w.extractLsb' 8 4 = 0#4 ↔ w.extractLsb' 9 3 = 0#3 ∧ w.extractLsb' 8 1 = 0#1 :=
  cut_eq_append_iff (x := 0#3) (y := 0#1)

theorem cut_0_6_eq_iff {w : Word} {x : BitVec 6} :
    w.extractLsb' 0 6 = x ↔ (w.extractLsb' 5 1 = x.extractLsb' 5 1 ∧
      w.extractLsb' 3 2 = x.extractLsb' 3 2) ∧ w.extractLsb' 0 3 = x.extractLsb' 0 3 := by
  conv_lhs => rw [← cut_all (x := x)]
  rw [cut_eq_cut_iff (v := 3) (u := 3), cut_eq_cut_iff (v := 1) (u := 2)]

/-- A mask that takes a part whole. -/
theorem and_ones :
    (∀ x : BitVec 1, x &&& 1#1 = x) ∧ (∀ x : BitVec 2, x &&& 3#2 = x) ∧
    (∀ x : BitVec 3, x &&& 7#3 = x) ∧ ∀ x : BitVec 4, x &&& 15#4 = x :=
  ⟨fun _ => BitVec.and_allOnes, fun _ => BitVec.and_allOnes, fun _ => BitVec.and_allOnes,
    fun _ => BitVec.and_allOnes⟩

/-- R85, R92: the fixed bits hold exactly on the words of the table's rows. For each variant only
its own rows are left; an exact row lies inside the general row of its variant. -/
theorem fixedBitsOk_iff_row {w : Word} :
    fixedBitsOk w = true ↔ ∃ row ∈ Machine.opcodeTable, w &&& row.1 = row.2 := by
  simp only [Machine.opcodeTable, BitVec.ofNat_eq_ofNat, List.mem_cons, List.not_mem_nil, or_false,
    word_eq_iff, BitVec.extractLsb'_and, exists_eq_or_imp, BitVec.reduceExtractLsb', and_ones,
    BitVec.extractLsb'_zero, BitVec.and_zero, and_true, existsAndEq, true_and]
  rw [← opcodeOf_bits]
  cases hop : opcodeOf w
  case' add | and => cases hmode : w.getLsbD 5
  case' jsr => cases hmode : w.getLsbD 11
  all_goals
    simp [*, -BitVec.getLsbD_eq_getElem, fixedBitsOk, Opcode.bits, cut_9_3_eq_zero_iff,
      cut_8_4_eq_zero_iff, cut_0_6_eq_iff, cut_one_eq_zero_iff, cut_one_eq_one_iff, and_assoc]
  case jmp | trap => tauto

/-- Settles O3: a word decodes when its fixed bits hold, and those are what the rows' masks leave of
each variant. -/
theorem decodeAcceptsExactlyTheTable : Obligations.DecodeAcceptsExactlyTheTable := by
  unfold Obligations.DecodeAcceptsExactlyTheTable
  exact fun w => decodes_iff_fixedBitsOk.trans fixedBitsOk_iff_row

end Sys2Proof
end

section
/-! SUPPORT. What a step does with the word it fetches (R80, R92, R93): the words it rejects, the
instructions that raise `InvalidOpcode`, and the statements about both. -/

namespace Sys2Proof.Machine

/-- R92: the decoder's check is the rule's list of wrong bits, negated. -/
theorem fixedBitsOk_iff_not_wrong {w : Word} : fixedBitsOk w = true ↔ ¬ fixedBitsWrong w := by
  unfold fixedBitsWrong
  rw [← opcodeOf_bits]
  cases hop : opcodeOf w
  case' add | and => cases hmode : w.getLsbD 5
  case' jsr => cases hmode : w.getLsbD 11
  all_goals simp [*, -BitVec.getLsbD_eq_getElem, fixedBitsOk, Opcode.bits]

/-- R92: a step that fetches a word with a wrong fixed bit. -/
theorem step_of_fixedBitsWrong {s : State} {w : Word} (hf : Fetches s w) (hw : fixedBitsWrong w) :
    step s = .next (s.advance.raise .invalidOpcode) := by
  obtain ⟨hrun, rfl⟩ := hf
  have hbad : fixedBitsOk s.fetchWord = false := by
    rw [← Bool.not_eq_true, fixedBitsOk_iff_not_wrong]
    exact not_not_intro hw
  exact step_of_reject hrun (decode_of_not_fixedBitsOk hbad)

/-- R192: the errors a vector's row can raise are those of the vector. -/
theorem mayRaise_trapOfVector (v : BitVec 8) (k : ErrorKind) :
    mayRaise (trapOfVector v) k = vectorMayRaise v k := by
  unfold trapOfVector
  split_ifs <;> simp_all [mayRaise]

/-- R93: the instructions that can raise `InvalidOpcode`, by variant. -/
theorem mayRaise_invalidOpcode_instrOf {o : Opcode} {f : Fields} :
    mayRaise (instrOf o f) .invalidOpcode = true ↔
      o = .rti ∨ o = .res ∨ (o = .trap ∧ (f.trapvect8 < 0x20 ∨ 0x25 < f.trapvect8)) := by
  cases o with
  | add | and => cases h : f.mode5 <;> simp [instrOf, h, mayRaise]
  | jsr => cases h : f.mode11 <;> simp [instrOf, h, mayRaise]
  | jmp => simp only [instrOf, jmpOfBase]; split <;> simp [mayRaise]
  | trap => simp [instrOf, mayRaise_trapOfVector, vectorMayRaise]
  | _ => simp [instrOf, mayRaise]

/-- R199: a vector that no primitive has. -/
theorem trapDispatch_of_unknown {v : BitVec 8} (hv : vectorMayRaise v .invalidOpcode = true)
    (s : State) : trapDispatch v s = .next (s.raise .invalidOpcode) := by
  unfold trapDispatch
  split_ifs <;> simp_all [vectorMayRaise]

/-- R199, R230, R231: an instruction that can raise `InvalidOpcode` does nothing else. -/
theorem exec_of_mayRaise_invalidOpcode {i : Instr} (hi : mayRaise i .invalidOpcode = true)
    (s : State) : exec i s = .next (s.raise .invalidOpcode) := by
  cases i with
  | rti | res => rfl
  | trap v => exact trapDispatch_of_unknown hi s
  | _ => cases hi

theorem TrapEffect.mayRaise_of_status {i : Instr} {s t : State} {k : ErrorKind}
    (h : TrapEffect i s t) (hs : s.status = .running) (ht : t.status = .error k) :
    mayRaise i k = true := by
  cases h with
  | continued | gotByte => exact absurd (hs.symm.trans ht) (by simp)
  | failed p k' hp hk => cases ht; exact hk
  | halted => cases ht

/-- R240: an execute phase ends with an error only where its instruction can raise it. -/
theorem mayRaise_of_exec {i : Instr} {s t : State} {k : ErrorKind} (h : exec i s = .next t)
    (hs : s.status = .running) (ht : t.status = .error k) : mayRaise i k = true := by
  cases exec_effect h with
  | trapped _ _ hte => exact hte.mayRaise_of_status hs ht
  | flagged | stored | jumped | called => exact absurd (hs.symm.trans ht) (by simp)

theorem exec_invalidOpcode_iff {i : Instr} {s : State} (hs : s.status = .running) :
    (∃ t, exec i s = .next t ∧ t.status = .error .invalidOpcode) ↔
      mayRaise i .invalidOpcode = true :=
  ⟨fun ⟨_, h, ht⟩ => mayRaise_of_exec h hs ht,
    fun hi => ⟨_, exec_of_mayRaise_invalidOpcode hi s, rfl⟩⟩

/-- R93: a word that decodes ends its step with `InvalidOpcode` by its variant or its vector. -/
theorem step_invalidOpcode_iff {s : State} {w : Word} (hf : Fetches s w)
    (hw : fixedBitsOk w = true) :
    (∃ t, step s = .next t ∧ t.status = .error .invalidOpcode) ↔
      opcodeOf w = .rti ∨ opcodeOf w = .res ∨
        (opcodeOf w = .trap ∧ (w.extractLsb' 0 8 < 0x20 ∨ 0x25 < w.extractLsb' 0 8)) := by
  obtain ⟨hrun, rfl⟩ := hf
  rw [step_of_decode hrun (decode_of_fixedBitsOk hw), exec_invalidOpcode_iff (s := s.advance) hrun,
    mayRaise_invalidOpcode_instrOf]
  rfl

/-- The high byte of a TRAP word whose bits 11:8 are zero. -/
theorem cut_8_8_eq_F0_iff {w : Word} :
    w.extractLsb' 8 8 = 0xF0 ↔ w.extractLsb' 12 4 = 0xF ∧ w.extractLsb' 8 4 = 0 :=
  cut_eq_append_iff (x := 0xF#4) (y := 0#4)

/-- R87, R170: the words from 0x0000 to 0x01FF are the BRs that no flag takes. -/
theorem decode_of_le_01FF {w : Word} (hw : w ≤ 0x01FF) :
    decode w = .ok (.br false false false (w.extractLsb' 0 9)) := by
  have hhigh : w.extractLsb' 9 7 = 0#7 := by
    have hlt : w.toNat < 512 := by bv_omega
    apply BitVec.eq_of_toNat_eq
    simp [BitVec.extractLsb'_toNat, Nat.shiftRight_eq_div_pow, Nat.div_eq_of_lt hlt]
  exact decode_eq_ok_iff_encode.2 ⟨rfl, append_eq_iff.2 ⟨hhigh, rfl⟩⟩

/-- R170: no flag takes a BR with an empty mask. -/
theorem exec_br_never (off : BitVec 9) (s : State) :
    exec (.br false false false off) s = .next s := by
  simp [exec, execBr, State.condMatches, condMask]

/-- Settles O5: the decoder rejects by the rule's own list, and a step that rejects raises. -/
theorem wrongFixedBitsRaiseInvalidOpcode : Obligations.WrongFixedBitsRaiseInvalidOpcode := by
  unfold Obligations.WrongFixedBitsRaiseInvalidOpcode
  exact ⟨fun w => decodes_iff_fixedBitsOk.trans fixedBitsOk_iff_not_wrong,
    fun s w hf hw => ⟨_, step_of_fixedBitsWrong hf hw, rfl, ⟨rfl, rfl, rfl, rfl⟩, rfl⟩⟩

/-- Settles O6: a word with a wrong fixed bit raises; any other raises by its variant or, for TRAP,
its vector. The words up to 0x01FF are the BRs with an empty mask. -/
theorem invalidOpcodeExactlyOnReservedAndIllegalWords :
    Obligations.InvalidOpcodeExactlyOnReservedAndIllegalWords := by
  unfold Obligations.InvalidOpcodeExactlyOnReservedAndIllegalWords
  refine ⟨fun s w hf => ?_, fun s w hf hw => ?_⟩
  · by_cases hbad : fixedBitsWrong w
    · exact iff_of_true ⟨_, step_of_fixedBitsWrong hf hbad, rfl⟩ (.inr (.inr (.inl hbad)))
    · have hok := fixedBitsOk_iff_not_wrong.2 hbad
      have hzero : w.extractLsb' 12 4 = 0xF → w.extractLsb' 8 4 = 0 := fun hF =>
        not_not.1 fun h => hbad (.inr (.inr (.inr (.inr ⟨hF, h⟩))))
      rw [step_invalidOpcode_iff hf hok, opcodeOf_eq_iff, opcodeOf_eq_iff, opcodeOf_eq_iff,
        cut_8_8_eq_F0_iff, and_iff_left_of_imp hzero]
      simp [hbad, Opcode.bits]
  · obtain ⟨hrun, rfl⟩ := hf
    rw [step_of_decode hrun (decode_of_le_01FF hw), exec_br_never]

/-- Settles O8: the step's equation for a word that decodes, and the fields of the fetch
increment. -/
theorem stepRunsTheDecodedInstruction : Obligations.StepRunsTheDecodedInstruction := by
  unfold Obligations.StepRunsTheDecodedInstruction
  exact fun s i hrun hd => ⟨step_of_decode hrun hd, rfl, rfl, rfl, rfl, rfl, rfl⟩

end Sys2Proof.Machine
end

section
/-! SUPPORT. The run of the host (R83, R285) and the labels of the assembler (R95), with the
statements about them. -/

namespace Sys2Proof.Machine

/-- R285: a step returns the result of the status behind it. -/
theorem hostStep_result {s t : State} {r : StepResult} (h : hostStep s = .next (r, t)) :
    r = resultOf t.status := by
  unfold hostStep at h
  split at h <;> cases h
  rfl

/-- R31: every result but `continue` is that of a core that has stopped. -/
theorem stopped_of_resultOf {st : Status} (h : resultOf st ≠ .continue) :
    st = .halted ∨ ∃ k, st = .error k := by
  cases st with
  | running => exact absurd rfl h
  | halted => exact .inl rfl
  | error k => exact .inr ⟨k, rfl⟩

/-- R83: a run that ends does so with the first result that is not `continue`. -/
theorem hostRun_some {fuel : Nat} {s t : State} {r : StepResult}
    (h : hostRun fuel s = .next (some (r, t))) : r = resultOf t.status ∧ r ≠ .continue := by
  induction fuel generalizing s with
  | zero => cases h
  | succ fuel ih =>
    unfold hostRun at h
    split at h
    · exact ih h
    · next r' t' hgo hstep => cases h; exact ⟨hostStep_result hstep, hgo⟩
    · cases h
    · cases h

/-- Settles O20: a run ends with the first result that is not `continue`, which a step reads off the
status. -/
theorem runEndsHaltedOrInError : Obligations.RunEndsHaltedOrInError := by
  unfold Obligations.RunEndsHaltedOrInError
  intro fuel s t r h
  obtain ⟨rfl, hstop⟩ := hostRun_some h
  exact ⟨rfl, stopped_of_resultOf hstop⟩

/-- R10: a field is the low bits of its extension. -/
theorem setWidth_signExtend {n : Nat} (off : BitVec n) (h : n ≤ 16) :
    (off.signExtend 16).setWidth n = off := by
  ext i hi
  simp [BitVec.getLsbD_signExtend, hi]
  omega

/-- R95: the assembled offset is the one whose extension is the distance to the label. -/
theorem labelOffset_eq_some_iff {n : Nat} {label addr : Word} {off : BitVec n} (h : n ≤ 16) :
    labelOffset n label addr = some off ↔ off.signExtend 16 = label - (addr + 1) := by
  simp only [labelOffset, sext_eq_signExtend]
  constructor
  · intro hs
    split at hs
    · next hfit => cases hs; exact hfit
    · cases hs
  · intro hoff
    rw [← hoff, setWidth_signExtend off h, if_pos rfl]

/-- Settles O60: the offset's extension is the distance from the incremented pc. -/
theorem labelOffsetsReachTheirLabels : Obligations.LabelOffsetsReachTheirLabels := by
  unfold Obligations.LabelOffsetsReachTheirLabels
  intro label addr n off h
  rw [labelOffset_eq_some_iff h, BitVec.eq_sub_iff_add_eq, BitVec.add_comm]

end Sys2Proof.Machine
end

section
/-! SUPPORT. The operate family (R122 to R126): each instruction's word, the one flagged write its
execute phase does, and the statements about them. -/

namespace Sys2Proof.Machine

/-! ### The words -/

/-- The mode bit and the two fixed bits of a register form (R85), written as one field. -/
theorem append_modeBit_fixedBits (x : BitVec 10) : x ++ 0#1 ++ 0#2 = x ++ 0#3 :=
  BitVec.append_assoc

theorem decode_add (dr sr1 sr2 : Reg) :
    decode (0b0001#4 ++ dr.bits ++ sr1.bits ++ 0b000#3 ++ sr2.bits) = .ok (.add dr sr1 sr2) :=
  decode_eq_ok_iff_encode.2 ⟨rfl, by rw [encode, append_modeBit_fixedBits]⟩

theorem decode_and (dr sr1 sr2 : Reg) :
    decode (0b0101#4 ++ dr.bits ++ sr1.bits ++ 0b000#3 ++ sr2.bits) = .ok (.and dr sr1 sr2) :=
  decode_eq_ok_iff_encode.2 ⟨rfl, by rw [encode, append_modeBit_fixedBits]⟩

/-! ### The execute phases -/

/-- R26: an execute phase that answers one flagged write, as the statements say it. -/
theorem exec_flaggedWrite {i : Instr} {s : State} {dr : Reg} {v : Word}
    (h : exec i s = .next (s.setRegFlagged dr v)) :
    ∃ t, exec i s = .next t ∧ FlaggedWrite s t dr v :=
  ⟨_, h, setRegFlagged_spec s dr v⟩

theorem exec_add (dr sr1 sr2 : Reg) (s : State) :
    exec (.add dr sr1 sr2) s = .next (s.setRegFlagged dr (s.reg sr1 + s.reg sr2)) := rfl

theorem exec_addi (dr sr1 : Reg) (imm5 : BitVec 5) (s : State) :
    exec (.addi dr sr1 imm5) s =
      .next (s.setRegFlagged dr (s.reg sr1 + imm5.signExtend 16)) := by
  rw [← sext_eq_signExtend]
  rfl

theorem exec_and (dr sr1 sr2 : Reg) (s : State) :
    exec (.and dr sr1 sr2) s = .next (s.setRegFlagged dr (s.reg sr1 &&& s.reg sr2)) := rfl

theorem exec_andi (dr sr1 : Reg) (imm5 : BitVec 5) (s : State) :
    exec (.andi dr sr1 imm5) s =
      .next (s.setRegFlagged dr (s.reg sr1 &&& imm5.signExtend 16)) := by
  rw [← sext_eq_signExtend]
  rfl

theorem exec_not (dr sr : Reg) (s : State) :
    exec (.not dr sr) s = .next (s.setRegFlagged dr (~~~ s.reg sr)) := rfl

/-! ### The exception -/

/-- R92, R122, R124: a register form of ADD or AND whose bits 4:3 are not 00 raises. -/
theorem step_of_registerForm_fixedBits {s : State} {w : Word} (hf : Fetches s w)
    (hop : w.extractLsb' 12 4 = 0x1 ∨ w.extractLsb' 12 4 = 0x5) (hmode : w.getLsbD 5 = false)
    (hbits : w.extractLsb' 3 2 ≠ 0b00) :
    ∃ t, step s = .next t ∧ Raised s.advance t .invalidOpcode :=
  wrongFixedBitsRaiseInvalidOpcode.2 s w hf (.inl ⟨hop, hmode, hbits⟩)

/-! ### The statements -/

/-- Settles O30: the word is the encoding, the execute phase one flagged write of the sum, and a
word with a wrong fixed bit is on R92's list. -/
theorem addRegister : Obligations.AddRegister := by
  unfold Obligations.AddRegister
  exact ⟨decode_add, fun dr sr1 sr2 s => exec_flaggedWrite (exec_add dr sr1 sr2 s),
    fun _ _ hf hop => step_of_registerForm_fixedBits hf (.inl hop)⟩

/-- Settles O31: the word is the encoding, and the execute phase one flagged write of the sum with
the extended field. -/
theorem addImmediate : Obligations.AddImmediate := by
  unfold Obligations.AddImmediate
  exact ⟨fun _ _ _ => decode_eq_ok_iff_encode.2 ⟨rfl, rfl⟩,
    fun dr sr1 imm5 s => exec_flaggedWrite (exec_addi dr sr1 imm5 s)⟩

/-- Settles O32: the word is the encoding, the execute phase one flagged write of the conjunction,
and a word with a wrong fixed bit is on R92's list. -/
theorem andRegister : Obligations.AndRegister := by
  unfold Obligations.AndRegister
  exact ⟨decode_and, fun dr sr1 sr2 s => exec_flaggedWrite (exec_and dr sr1 sr2 s),
    fun _ _ hf hop => step_of_registerForm_fixedBits hf (.inr hop)⟩

/-- Settles O33: the word is the encoding, and the execute phase one flagged write of the
conjunction with the extended field. -/
theorem andImmediate : Obligations.AndImmediate := by
  unfold Obligations.AndImmediate
  exact ⟨fun _ _ _ => decode_eq_ok_iff_encode.2 ⟨rfl, rfl⟩,
    fun dr sr1 imm5 s => exec_flaggedWrite (exec_andi dr sr1 imm5 s)⟩

/-- Settles O34: the word is the encoding, the execute phase one flagged write of the complement,
and a word whose bits 5:0 are not all ones is on R92's list. -/
theorem notRegister : Obligations.NotRegister := by
  unfold Obligations.NotRegister
  exact ⟨fun _ _ => decode_eq_ok_iff_encode.2 ⟨rfl, rfl⟩,
    fun dr sr s => exec_flaggedWrite (exec_not dr sr s),
    fun s w hf hop hones => wrongFixedBitsRaiseInvalidOpcode.2 s w hf (.inr (.inl ⟨hop, hones⟩))⟩

end Sys2Proof.Machine
end

section
/-! SUPPORT. The memory family (R141 to R148): each effective address as the rule writes it, the one
flagged write or the one store an execute phase does, and the statements about them. -/

namespace Sys2Proof.Machine

/-! ### The effective addresses -/

/-- R90, R140: PC-relative. -/
theorem State.pcRelative_eq {n : Nat} (s : State) (off : BitVec n) :
    s.pcRelative off = s.pc + off.signExtend 16 := by
  rw [State.pcRelative, sext_eq_signExtend]

/-- R90, R140: memory-indirect. -/
theorem State.indirect_eq (s : State) (off : BitVec 9) :
    s.indirect off = s.load (s.pc + off.signExtend 16) := by
  rw [State.indirect, State.pcRelative_eq]

/-- R90, R140: base+offset. -/
theorem State.basePlusOffset_eq (s : State) (baseR : Reg) (off : BitVec 6) :
    s.basePlusOffset baseR off = s.reg baseR + off.signExtend 16 := by
  rw [State.basePlusOffset, sext_eq_signExtend]

/-! ### The execute phases of the loads and of LEA -/

theorem exec_ld (dr : Reg) (off : BitVec 9) (s : State) :
    exec (.ld dr off) s = .next (s.setRegFlagged dr (s.load (s.pc + off.signExtend 16))) := by
  rw [← State.pcRelative_eq]
  rfl

theorem exec_ldi (dr : Reg) (off : BitVec 9) (s : State) :
    exec (.ldi dr off) s =
      .next (s.setRegFlagged dr (s.load (s.load (s.pc + off.signExtend 16)))) := by
  rw [← State.indirect_eq]
  rfl

theorem exec_ldr (dr baseR : Reg) (off : BitVec 6) (s : State) :
    exec (.ldr dr baseR off) s =
      .next (s.setRegFlagged dr (s.load (s.reg baseR + off.signExtend 16))) := by
  rw [← State.basePlusOffset_eq]
  rfl

theorem exec_lea (dr : Reg) (off : BitVec 9) (s : State) :
    exec (.lea dr off) s = .next (s.setRegFlagged dr (s.pc + off.signExtend 16)) := by
  rw [← State.pcRelative_eq]
  rfl

/-! ### The execute phases of the stores -/

/-- A stored cell loads back. -/
theorem State.load_store_same {s : State} (h : s.mem.wf = true) (a v : Word) :
    (s.store a v).load a = v := by
  rw [State.load_store h, if_pos rfl]

/-- R12: what a store leaves, as the statements say it. -/
theorem store_spec {s : State} (h : s.mem.wf = true) (a v : Word) :
    Stored s (s.store a v) a v :=
  ⟨State.load_store_same h a v, fun _ hb => State.cellAt_store_other h hb v, rfl, rfl, rfl, rfl,
    rfl⟩

/-- R56: a storing instruction answers one store, as the statements say it. -/
theorem exec_stored {i : Instr} {s : State} {a : Word} {sr : Reg} (h : s.mem.wf = true)
    (hi : storeTarget s i = some (a, sr)) :
    ∃ t, exec i s = .next t ∧ Stored s t a (s.reg sr) :=
  ⟨_, exec_of_storeTarget hi, store_spec h a (s.reg sr)⟩

theorem storeTarget_st (s : State) (sr : Reg) (off : BitVec 9) :
    storeTarget s (.st sr off) = some (s.pc + off.signExtend 16, sr) := by
  rw [storeTarget, State.pcRelative_eq]

theorem storeTarget_sti (s : State) (sr : Reg) (off : BitVec 9) :
    storeTarget s (.sti sr off) = some (s.load (s.pc + off.signExtend 16), sr) := by
  rw [storeTarget, State.indirect_eq]

theorem storeTarget_str (s : State) (sr baseR : Reg) (off : BitVec 6) :
    storeTarget s (.str sr baseR off) = some (s.reg baseR + off.signExtend 16, sr) := by
  rw [storeTarget, State.basePlusOffset_eq]

/-! ### STI, then LDI through the same pointer cell (R148) -/

/-- R142: LDI reads the cell that its pointer cell names. -/
theorem exec_ldi_of_pointer {u : State} {off : BitVec 9} {p a : Word}
    (hp : u.pcRelative off = p) (ha : u.load p = a) (dr : Reg) :
    exec (.ldi dr off) u = .next (u.setRegFlagged dr (u.load a)) := by
  rw [exec_ldi, ← State.pcRelative_eq, hp, ha]

/-- R146, R148: an STI that does not store over its own pointer leaves the pointer cell, and the
cell it names holds the stored register. -/
theorem load_after_sti {s t : State} {sr : Reg} {off : BitVec 9} (hwf : s.mem.wf = true)
    (h : exec (.sti sr off) s = .next t)
    (hne : s.load (s.pcRelative off) ≠ s.pcRelative off) :
    t.load (s.pcRelative off) = s.load (s.pcRelative off) ∧
      t.load (s.load (s.pcRelative off)) = s.reg sr := by
  rw [exec_of_storeTarget (storeTarget_sti s sr off), ← State.pcRelative_eq] at h
  cases h
  exact ⟨by rw [State.load_store hwf, if_neg hne.symm], State.load_store_same hwf _ _⟩

/-! ### The statements -/

/-- Settles O35: the word is the encoding, and the execute phase one flagged write of the loaded
cell. -/
theorem loadPcRelative : Obligations.LoadPcRelative := by
  unfold Obligations.LoadPcRelative
  exact ⟨fun _ _ => decode_eq_ok_iff_encode.2 ⟨rfl, rfl⟩,
    fun dr off s => exec_flaggedWrite (exec_ld dr off s)⟩

/-- Settles O36: the word is the encoding, and the execute phase one flagged write of the cell that
the pointer cell names. -/
theorem loadIndirect : Obligations.LoadIndirect := by
  unfold Obligations.LoadIndirect
  exact ⟨fun _ _ => decode_eq_ok_iff_encode.2 ⟨rfl, rfl⟩,
    fun dr off s => exec_flaggedWrite (exec_ldi dr off s)⟩

/-- Settles O37: the word is the encoding, and the execute phase one flagged write of the loaded
cell, whose address is read before DR is written. -/
theorem loadBasePlusOffset : Obligations.LoadBasePlusOffset := by
  unfold Obligations.LoadBasePlusOffset
  exact ⟨fun _ _ _ => decode_eq_ok_iff_encode.2 ⟨rfl, rfl⟩,
    fun dr baseR off s => exec_flaggedWrite (exec_ldr dr baseR off s)⟩

/-- Settles O38: the word is the encoding, and the execute phase one flagged write of the
address. -/
theorem loadEffectiveAddress : Obligations.LoadEffectiveAddress := by
  unfold Obligations.LoadEffectiveAddress
  exact ⟨fun _ _ => decode_eq_ok_iff_encode.2 ⟨rfl, rfl⟩,
    fun dr off s => exec_flaggedWrite (exec_lea dr off s)⟩

/-- Settles O39: the word is the encoding, and the execute phase one store at the PC-relative
address. -/
theorem storePcRelative : Obligations.StorePcRelative := by
  unfold Obligations.StorePcRelative
  exact ⟨fun _ _ => decode_eq_ok_iff_encode.2 ⟨rfl, rfl⟩,
    fun sr off s hwf => exec_stored hwf (storeTarget_st s sr off)⟩

/-- Settles O40: the word is the encoding, and the execute phase one store at the address that the
pointer cell held before it. -/
theorem storeIndirect : Obligations.StoreIndirect := by
  unfold Obligations.StoreIndirect
  exact ⟨fun _ _ => decode_eq_ok_iff_encode.2 ⟨rfl, rfl⟩,
    fun sr off s hwf => exec_stored hwf (storeTarget_sti s sr off)⟩

/-- Settles O41: the word is the encoding, and the execute phase one store at the base+offset
address. -/
theorem storeBasePlusOffset : Obligations.StoreBasePlusOffset := by
  unfold Obligations.StoreBasePlusOffset
  exact ⟨fun _ _ _ => decode_eq_ok_iff_encode.2 ⟨rfl, rfl⟩,
    fun sr baseR off s hwf => exec_stored hwf (storeTarget_str s sr baseR off)⟩

/-- Settles O42: the later LDI finds the pointer that the STI used, and in the cell it names the
stored register. -/
theorem storeIndirectThenLoadIndirect : Obligations.StoreIndirectThenLoadIndirect := by
  unfold Obligations.StoreIndirectThenLoadIndirect
  intro s t u sr dr off off' hwf hsti hsame hne hpointer hcell
  obtain ⟨htpointer, htcell⟩ := load_after_sti hwf hsti hne
  obtain ⟨hreg, -⟩ := setRegFlagged_spec u dr (u.load (s.load (s.pcRelative off)))
  exact ⟨_, exec_ldi_of_pointer hsame (hpointer.trans htpointer) dr,
    hreg.trans (hcell.trans htcell)⟩

end Sys2Proof.Machine
end

section
/-! SUPPORT. The control family (R170 to R174): BR's test flag by flag, the one write of `pc` or the
one call an execute phase does, and the statements about them. -/

namespace Sys2Proof.Machine

/-! ### The words -/

/-- R171: the base picks the row, and each row's encoding is the word with its base. -/
theorem decode_jmp (baseR : Reg) :
    decode (0b1100#4 ++ 0b000#3 ++ baseR.bits ++ 0b000000#6) =
      .ok (if baseR = .r7 then .ret else .jmp baseR) := by
  split
  · next h => rw [h]; exact decode_eq_ok_iff_encode.2 ⟨rfl, rfl⟩
  · next h => exact decode_eq_ok_iff_encode.2 ⟨decide_eq_true h, rfl⟩

/-! ### The execute phases of the jumps -/

/-- R12: what a write of `pc` leaves, as the statements say it. -/
theorem setPc_spec (s : State) (target : Word) : JumpedTo s (s.setPc target) target :=
  ⟨rfl, rfl, rfl, rfl, rfl, rfl⟩

/-- An execute phase that answers one write of `pc`, as the statements say it. -/
theorem exec_setPc {i : Instr} {s : State} {target : Word}
    (h : exec i s = .next (s.setPc target)) :
    ∃ t, exec i s = .next t ∧ JumpedTo s t target :=
  ⟨_, h, setPc_spec s target⟩

theorem exec_jmp (baseR : Reg) (s : State) :
    exec (.jmp baseR) s = .next (s.setPc (s.reg baseR)) := rfl

theorem exec_ret (s : State) : exec .ret s = .next (s.setPc (s.reg .r7)) := rfl

/-- R28, R87: mask and COND share a bit when some flag is set in both. -/
theorem condMask_and_ne_zero_iff (n z p : Bool) (c : BitVec 3) :
    condMask n z p &&& c ≠ 0 ↔
      (n && c.getLsbD 2 || z && c.getLsbD 1 || p && c.getLsbD 0) = true := by
  revert n z p c
  decide

/-- R170: BR's test, flag by flag. -/
theorem State.condMatches_eq (s : State) (n z p : Bool) :
    s.condMatches n z p =
      (n && s.cond.getLsbD 2 || z && s.cond.getLsbD 1 || p && s.cond.getLsbD 0) := by
  simp only [State.condMatches, condMask_and_ne_zero_iff, Bool.decide_eq_true]

theorem exec_br_taken {n z p : Bool} {s : State} (h : s.condMatches n z p = true)
    (off : BitVec 9) :
    exec (.br n z p off) s = .next (s.setPc (s.pc + off.signExtend 16)) := by
  rw [← State.pcRelative_eq]
  exact congrArg Host.Outcome.next (if_pos h)

theorem exec_br_not_taken {n z p : Bool} {s : State} (h : s.condMatches n z p = false)
    (off : BitVec 9) : exec (.br n z p off) s = .next s :=
  congrArg Host.Outcome.next (if_neg (by simp [h]))

/-! ### The execute phases of the calls -/

/-- An execute phase that answers one call, as the statements say it. -/
theorem exec_call {i : Instr} {s : State} {target : Word}
    (h : exec i s = .next (s.call target)) :
    ∃ t, exec i s = .next t ∧ Called s t target :=
  ⟨_, h, call_spec s target⟩

theorem exec_jsr (off : BitVec 11) (s : State) :
    exec (.jsr off) s = .next (s.call (s.pc + off.signExtend 16)) := by
  rw [← State.pcRelative_eq]
  rfl

theorem exec_jsrr (baseR : Reg) (s : State) :
    exec (.jsrr baseR) s = .next (s.call (s.reg baseR)) := rfl

/-- R172, R173: both calls, whatever the target, leave the link in R7. -/
theorem exec_call_link {s t : State} {i : Instr}
    (hi : (∃ off, i = .jsr off) ∨ ∃ baseR, i = .jsrr baseR) (h : exec i s = .next t) :
    t.reg .r7 = s.pc := by
  obtain ⟨target, htarget⟩ : ∃ target, exec i s = .next (s.call target) := by
    obtain ⟨off, rfl⟩ | ⟨baseR, rfl⟩ := hi
    · exact ⟨_, exec_jsr off s⟩
    · exact ⟨_, exec_jsrr baseR s⟩
  rw [htarget] at h
  cases h
  obtain ⟨hlink, -⟩ := call_spec s target
  exact hlink

/-! ### The statements -/

/-- Settles O44: the word is the encoding, and the execute phase one write of `pc` when the test,
read flag by flag, succeeds. -/
theorem conditionalBranch : Obligations.ConditionalBranch := by
  unfold Obligations.ConditionalBranch
  refine ⟨fun _ _ _ _ => decode_eq_ok_iff_encode.2 ⟨rfl, rfl⟩, fun n z p off s => ?_⟩
  rw [← State.condMatches_eq]
  exact ⟨fun h => exec_setPc (exec_br_taken h off), fun h => exec_br_not_taken h off⟩

/-- Settles O45: the base picks the row of the word, the execute phase is one write of `pc`, and a
word with a wrong fixed bit is on R92's list. -/
theorem jumpThroughRegister : Obligations.JumpThroughRegister := by
  unfold Obligations.JumpThroughRegister
  exact ⟨decode_jmp, fun baseR s => exec_setPc (exec_jmp baseR s),
    fun s => exec_setPc (exec_ret s),
    fun s w hf hop hbits =>
      wrongFixedBitsRaiseInvalidOpcode.2 s w hf (.inr (.inr (.inr (.inl ⟨hop, hbits⟩))))⟩

/-- Settles O46: the word is the encoding, and the execute phase one call of the PC-relative
address. -/
theorem callPcRelative : Obligations.CallPcRelative := by
  unfold Obligations.CallPcRelative
  exact ⟨fun _ => decode_eq_ok_iff_encode.2 ⟨rfl, rfl⟩,
    fun off s => exec_call (exec_jsr off s)⟩

/-- Settles O47: the word is the encoding, the execute phase one call of the base register's old
value, and a word with a wrong fixed bit is on R92's list. -/
theorem callThroughRegister : Obligations.CallThroughRegister := by
  unfold Obligations.CallThroughRegister
  exact ⟨fun _ => decode_eq_ok_iff_encode.2 ⟨rfl, rfl⟩,
    fun baseR s => exec_call (exec_jsrr baseR s),
    fun s w hf hop hmode hbits =>
      wrongFixedBitsRaiseInvalidOpcode.2 s w hf (.inr (.inr (.inl ⟨hop, hmode, hbits⟩)))⟩

/-- Settles O48: the call leaves the incremented `pc` in R7, and RET puts R7 into `pc`. -/
theorem returnResumesAfterTheCall : Obligations.ReturnResumesAfterTheCall := by
  unfold Obligations.ReturnResumesAfterTheCall
  intro s t u i hi hs hcall hstep hu hret hr7
  have hlink : t.reg .r7 = s.pc + 1 := exec_call_link hi (step_of_decode hs hcall ▸ hstep)
  exact ⟨_, (step_of_decode hu hret).trans (exec_ret u.advance), hr7.trans hlink⟩

end Sys2Proof.Machine
end

section
/-! SUPPORT. Who uses the ports (R190): an instruction that is no TRAP neither reads nor changes them,
and no step takes back an accepted byte (R202); with the statements about both. -/

namespace Sys2Proof.Machine

/-- R190: an instruction that is no TRAP answers, and its next state has the ports it found. -/
theorem exec_next_of_not_trap {i : Instr} (hi : i.opcode ≠ .trap) (s : State) :
    ∃ t, exec i s = .next t ∧ t.ports = s.ports := by
  cases i with
  | br n z p off => exact ⟨_, rfl, by split <;> rfl⟩
  | getc | out | puts | inChar | putsp | halt | trap => exact absurd rfl hi
  | _ => exact ⟨_, rfl, rfl⟩

/-- R190: an instruction that is no TRAP only carries the ports along. -/
theorem exec_setPorts_of_not_trap {i : Instr} (hi : i.opcode ≠ .trap) (s : State) (p : Ports) :
    exec i (s.setPorts p) = mapNext (·.setPorts p) (exec i s) := by
  cases i with
  | br n z p' off =>
    simp only [exec, execBr, mapNext_next, apply_ite (State.setPorts · p)]
    rfl
  | getc | out | puts | inChar | putsp | halt | trap => exact absurd rfl hi
  | _ => rfl

theorem TrapEffect.grown {i : Instr} {s t : State} (h : TrapEffect i s t) :
    s.ports.grown t.ports := by
  cases h with
  | continued _ hp | gotByte _ _ hp | failed _ _ hp => exact hp
  | halted => exact Ports.grown_refl _

/-- R202: whatever the instruction, the bytes accepted before stay accepted. -/
theorem ExecEffect.grown {i : Instr} {s t : State} (h : ExecEffect i s t) :
    s.ports.grown t.ports := by
  cases h with
  | flagged | stored | jumped | called => exact Ports.grown_refl _
  | trapped _ _ ht => exact ht.grown

/-- Settles O27: an instruction that is no TRAP leaves the ports, and commutes with a change of
them. -/
theorem onlyTrapsUseThePorts : Obligations.OnlyTrapsUseThePorts := by
  unfold Obligations.OnlyTrapsUseThePorts
  intro i s t p hi h
  obtain ⟨u, hu, hports⟩ := exec_next_of_not_trap hi s
  rw [h] at hu
  cases hu
  exact ⟨hports, by rw [exec_setPorts_of_not_trap hi, h, mapNext_next]⟩

/-- Settles O28: neither the fetch increment nor an error nor an effect of an execute phase takes
back an accepted byte. -/
theorem acceptedBytesAreNotTakenBack : Obligations.AcceptedBytesAreNotTakenBack := by
  unfold Obligations.AcceptedBytesAreNotTakenBack
  intro s t h
  exact step_keeps (P := fun u => s.ports.grown u.ports) (fun _ hu => hu) (fun _ _ hu => hu)
    (fun _ _ _ hi hu => Ports.grown_trans hu (exec_effect hi).grown) (Ports.grown_refl _) h

end Sys2Proof.Machine
end

section
/-! SUPPORT. What the scripts say of a step's outcome (R191): a fault has its unanswered transaction
in a script, and a next state lists none that was not listed before; with the statement about
scripts in which every transaction is answered. -/

namespace Sys2Proof.Machine

/-- The scripts of `q` list an unanswered transaction only where those of `p` do. -/
def Ports.keepsAnswered (p q : Ports) : Prop :=
  (none ∈ q.inputScript → none ∈ p.inputScript) ∧ (none ∈ q.outputScript → none ∈ p.outputScript)

theorem Ports.keepsAnswered_refl (p : Ports) : p.keepsAnswered p := ⟨id, id⟩

/-- What can come of a step that begins with the ports `p`. -/
def AccountedFor (p : Ports) : Host.Outcome State Fault Refusal → Prop
  | .next t => p.keepsAnswered t.ports
  | .fault .inputNeverAnswers => none ∈ p.inputScript
  | .fault .outputNeverAnswers => none ∈ p.outputScript
  | .refused _ => False

theorem AccountedFor.after {p q : Ports} {o : Host.Outcome State Fault Refusal}
    (hpq : p.keepsAnswered q) (h : AccountedFor q o) : AccountedFor p o := by
  obtain ⟨hin, hout⟩ := hpq
  match o, h with
  | .next _, ⟨hin', hout'⟩ => exact ⟨hin ∘ hin', hout ∘ hout'⟩
  | .fault .inputNeverAnswers, h => exact hin h
  | .fault .outputNeverAnswers, h => exact hout h

/-! ### The port operations -/

theorem State.takeInput_keepsAnswered (s : State) :
    (s.takeInput = none ∧ none ∈ s.ports.inputScript) ∨
      ∃ r p, s.takeInput = some (r, s.setPorts p) ∧ s.ports.keepsAnswered p := by
  obtain ⟨h, hnone⟩ | ⟨r, p, h, -, hout, -, hin⟩ := s.takeInput_cases
  · exact .inl ⟨h, List.mem_of_head? hnone⟩
  · refine .inr ⟨r, p, h, fun hmem => ?_, fun hmem => hout ▸ hmem⟩
    obtain hin | hin := hin
    · exact hin ▸ hmem
    · exact hin ▸ List.mem_cons_of_mem _ hmem

theorem State.putBytes_keepsAnswered (s : State) (bs : List Byte) :
    (s.putBytes bs = none ∧ none ∈ s.ports.outputScript) ∨
      ∃ r p, s.putBytes bs = some (r, s.setPorts p) ∧ s.ports.keepsAnswered p := by
  obtain hnone | ⟨r, p, h, ⟨pre, hpre⟩, hin, -⟩ := s.putBytes_cases bs
  · exact .inl hnone
  · exact .inr ⟨r, p, h, fun hmem => hin ▸ hmem, fun hmem => hpre ▸ List.mem_append_right pre hmem⟩

/-- One byte is a row of one byte. -/
theorem State.putBytes_singleton (s : State) (b : Byte) : s.putBytes [b] = s.putByte b := by
  rw [State.putBytes]
  rcases s.putByte b with _ | ⟨_ | _, s'⟩ <;> rfl

theorem State.putByte_keepsAnswered (s : State) (b : Byte) :
    (s.putByte b = none ∧ none ∈ s.ports.outputScript) ∨
      ∃ r p, s.putByte b = some (r, s.setPorts p) ∧ s.ports.keepsAnswered p := by
  rw [← State.putBytes_singleton]
  exact s.putBytes_keepsAnswered [b]

/-! ### The trap primitives -/

theorem trapGetc_accountedFor (s : State) : AccountedFor s.ports (trapGetc s) := by
  rw [trapGetc]
  obtain ⟨h, hnone⟩ | ⟨r, p, h, hp⟩ := s.takeInput_keepsAnswered
  · rw [h]; exact hnone
  · rw [h]; cases r <;> exact hp

theorem writeOut_accountedFor (bs : List Byte) (s : State) :
    AccountedFor s.ports (writeOut bs s) := by
  rw [writeOut]
  obtain ⟨h, hnone⟩ | ⟨r, p, h, hp⟩ := s.putBytes_keepsAnswered bs
  · rw [h]; exact hnone
  · rw [h]; cases r <;> exact hp

theorem trapOut_accountedFor (s : State) : AccountedFor s.ports (trapOut s) :=
  trapOut_eq s ▸ writeOut_accountedFor _ s

theorem writeWalked_accountedFor (walked : Except ErrorKind (List Byte)) (s : State) :
    AccountedFor s.ports (writeWalked walked s) := by
  cases walked with
  | error e => exact Ports.keepsAnswered_refl _
  | ok bs => exact writeOut_accountedFor bs s

theorem echoAndSet_accountedFor (b : Byte) (s : State) :
    AccountedFor s.ports (echoAndSet b s) := by
  rw [echoAndSet]
  obtain ⟨h, hnone⟩ | ⟨r, p, h, hp⟩ := s.putByte_keepsAnswered b
  · rw [h]; exact hnone
  · rw [h]; cases r <;> exact hp

theorem readAndEcho_accountedFor (s : State) : AccountedFor s.ports (readAndEcho s) := by
  rw [readAndEcho]
  obtain ⟨h, hnone⟩ | ⟨r, p, h, hp⟩ := s.takeInput_keepsAnswered
  · rw [h]; exact hnone
  · rw [h]
    cases r with
    | byte b => exact (echoAndSet_accountedFor b _).after hp
    | fail => exact hp

theorem trapInWith_accountedFor (prompt : List Byte) (s : State) :
    AccountedFor s.ports (trapInWith prompt s) := by
  rw [trapInWith]
  obtain ⟨h, hnone⟩ | ⟨r, p, h, hp⟩ := s.putBytes_keepsAnswered prompt
  · rw [h]; exact hnone
  · rw [h]
    cases r with
    | ok => exact (readAndEcho_accountedFor _).after hp
    | fail => exact hp

theorem trapDispatch_accountedFor (v : BitVec 8) (s : State) :
    AccountedFor s.ports (trapDispatch v s) := by
  unfold trapDispatch
  split_ifs
  · exact trapGetc_accountedFor s
  · exact trapOut_accountedFor s
  · exact writeWalked_accountedFor _ s
  · exact trapInWith_accountedFor _ s
  · exact writeWalked_accountedFor _ s
  · exact Ports.keepsAnswered_refl _
  · exact Ports.keepsAnswered_refl _

/-! ### The execute phase and the step -/

theorem exec_accountedFor (i : Instr) (s : State) : AccountedFor s.ports (exec i s) := by
  by_cases hi : i.opcode = .trap
  · cases i with
    | getc => exact trapGetc_accountedFor s
    | out => exact trapOut_accountedFor s
    | puts | putsp => exact writeWalked_accountedFor _ s
    | inChar => exact trapInWith_accountedFor _ s
    | halt => exact Ports.keepsAnswered_refl _
    | trap v => exact trapDispatch_accountedFor v s
    | _ => cases hi
  · obtain ⟨t, h, hports⟩ := exec_next_of_not_trap hi s
    rw [h, ← hports]
    exact Ports.keepsAnswered_refl _

theorem step_accountedFor (s : State) : AccountedFor s.ports (step s) := by
  by_cases hr : s.status = .running
  · cases hd : decode s.fetchWord with
    | error why => rw [step_of_reject hr hd]; exact Ports.keepsAnswered_refl _
    | ok i => rw [step_of_decode hr hd]; exact exec_accountedFor i s.advance
  · rw [step_of_stopped hr]; exact Ports.keepsAnswered_refl _

/-- Settles O15: neither fault is accounted for by scripts that list no unanswered transaction. -/
theorem answeredStepsHaveASuccessor : Obligations.AnsweredStepsHaveASuccessor := by
  unfold Obligations.AnsweredStepsHaveASuccessor
  rintro s ⟨hin, hout⟩
  match step s, step_accountedFor s with
  | .next t, ⟨hkeepIn, hkeepOut⟩ => exact ⟨t, rfl, hin ∘ hkeepIn, hout ∘ hkeepOut⟩
  | .fault .inputNeverAnswers, h => exact absurd h hin
  | .fault .outputNeverAnswers, h => exact absurd h hout

end Sys2Proof.Machine
end

section
/-! SUPPORT. TRAP's words and vectors (R192, R199), what no vector writes, and HALT (R200), with the
statements about them. -/

namespace Sys2Proof.Machine

/-- R192: the row of a vector is the reading of its word. -/
theorem decode_trap (v : BitVec 8) :
    decode (0b1111#4 ++ 0b0000#4 ++ v) = .ok (trapOfVector v) := by
  obtain ⟨⟨hop, hzero⟩, hv⟩ := append_4_4_8_eq_iff.1 (Eq.refl (0b1111#4 ++ 0b0000#4 ++ v))
  have htrap : opcodeOf (0b1111#4 ++ 0b0000#4 ++ v) = .trap := opcodeOf_eq_iff.2 hop
  have hfix : fixedBitsOk (0b1111#4 ++ 0b0000#4 ++ v) = true := by
    rw [fixedBitsOk, htrap]
    exact beq_iff_eq.2 hzero
  rw [decode_of_fixedBitsOk hfix, htrap, instrOf, fieldsOf, hv]

/-- R199: a vector outside 0x20..0x25 has no row of its own. -/
theorem trapOfVector_of_unknown {v : BitVec 8} (hv : v < 0x20 ∨ 0x25 < v) :
    trapOfVector v = .trap v := by
  refine trapOfVector_eq_trap_iff.2 ⟨?_, rfl⟩
  simp only [Instr.trapVectorOk, Bool.not_eq_true', Bool.and_eq_false_iff, decide_eq_false_iff_not]
  bv_omega

/-- R199: a vector outside 0x20..0x25 raises `InvalidOpcode`. -/
theorem exec_trap_of_unknown {v : BitVec 8} (hv : v < 0x20 ∨ 0x25 < v) (s : State) :
    exec (.trap v) s = .next (s.raise .invalidOpcode) :=
  exec_of_mayRaise_invalidOpcode (by simpa [mayRaise, vectorMayRaise] using hv) s

/-- R241: what an error leaves, as the statements say it. -/
theorem raise_spec (s : State) (k : ErrorKind) : Raised s (s.raise k) k :=
  ⟨rfl, ⟨rfl, rfl, rfl, rfl⟩, rfl⟩

/-- R27, R192: a TRAP stores nothing, writes no `pc` and no COND, and no register but R0. -/
theorem writes_of_trap {i : Instr} (hi : i.opcode = .trap) (s : State) :
    writesPc i = false ∧ flaggedDest i = none ∧ storeTarget s i = none ∧
      ∀ r, r ≠ .r0 → plainDest i ≠ some r := by
  cases i with
  | getc | out | puts | inChar | putsp | halt =>
    exact ⟨rfl, rfl, rfl, fun r hr => by simp [plainDest, hr.symm]⟩
  | trap v =>
    refine ⟨rfl, rfl, rfl, fun r hr => ?_⟩
    rw [plainDest]
    split <;> simp [hr.symm]
  | _ => cases hi

/-- R192: what a TRAP leaves as it found it. -/
theorem exec_frame_of_trap {i : Instr} {s t : State} (hi : i.opcode = .trap)
    (h : exec i s = .next t) :
    t.pc = s.pc ∧ t.cond = s.cond ∧ t.mem = s.mem ∧ ∀ r, r ≠ .r0 → t.reg r = s.reg r := by
  obtain ⟨hpc, hflag, hstore, hplain⟩ := writes_of_trap hi s
  have heffect := exec_effect h
  exact ⟨heffect.pc_eq hpc, heffect.cond_eq hflag, heffect.mem_eq hstore,
    fun r hr => heffect.reg_eq (by simp [hflag]) (hplain r hr)⟩

/-- R200: HALT writes the status and nothing else. -/
theorem exec_halt (s : State) : exec .halt s = .next (s.setStatus .halted) := rfl

theorem decode_F025 : decode 0xF025 = .ok .halt := decode_eq_ok_iff_encode.2 ⟨rfl, rfl⟩

/-- R80, R200: a step that fetches HALT. -/
theorem step_of_halt {s : State} (hf : Fetches s 0xF025) :
    step s = .next (s.advance.setStatus .halted) := by
  obtain ⟨hrun, hw⟩ := hf
  rw [step_of_decode hrun (hw ▸ decode_F025), exec_halt]

/-- R285: what the host gets of a step that answers. -/
theorem hostStep_of_step {s t : State} (h : step s = .next t) :
    hostStep s = .next (resultOf t.status, t) := by
  rw [hostStep, h]

/-- R83: a run stops after a step that returns `Halted`. -/
theorem hostRun_of_halted {s t : State} (h : hostStep s = .next (.halted, t)) (fuel : Nat) :
    hostRun (fuel + 1) s = .next (some (.halted, t)) := by
  rw [hostRun, h]

/-- Settles O49: the word's variant, fixed bits and vector pick its row, the dispatcher runs the
row's primitive, an unknown vector raises, and no effect of a TRAP writes more than R0. -/
theorem trapSelectsItsPrimitive : Obligations.TrapSelectsItsPrimitive := by
  unfold Obligations.TrapSelectsItsPrimitive
  exact ⟨decode_trap, fun s => ⟨rfl, rfl, rfl, rfl, rfl, rfl⟩,
    fun v s hv => ⟨trapOfVector_of_unknown hv, _, exec_trap_of_unknown hv s, raise_spec s _⟩,
    fun i s t hi h => exec_frame_of_trap hi h,
    fun s w hf hop hbits =>
      wrongFixedBitsRaiseInvalidOpcode.2 s w hf (.inr (.inr (.inr (.inr ⟨hop, hbits⟩))))⟩

/-- Settles O55: HALT is one write of the status, the step does it after the fetch increment, and
the run ends with that step. -/
theorem haltEndsTheRun : Obligations.HaltEndsTheRun := by
  unfold Obligations.HaltEndsTheRun
  refine ⟨decode_F025, fun s => ⟨_, exec_halt s, rfl, ⟨rfl, rfl, rfl, rfl⟩, rfl⟩, fun s hf => ?_⟩
  have hhost : hostStep s = .next (.halted, s.advance.setStatus .halted) :=
    hostStep_of_step (step_of_halt hf)
  exact ⟨_, hhost, rfl, rfl, rfl, rfl, rfl, rfl, hostRun_of_halted hhost⟩

end Sys2Proof.Machine
end

section
/-! SUPPORT. The primitives that move single bytes (R193, R194, R197), stage by stage and answer by
answer, with the statements about GETC, OUT and IN. -/

namespace Sys2Proof.Machine

/-! ### What a primitive leaves, as the statements say it -/

/-- R193, R197: a byte in R0 after some port transactions. -/
theorem setReg_r0_spec (s : State) (p : Ports) (b : Byte) :
    ByteInR0 s ((s.setPorts p).setReg .r0 (zext b)) b := by
  refine ⟨by simp, fun r hr => ?_, rfl, rfl, rfl, rfl⟩
  simpa using Regs.get_set_other s.regs (zext b) hr

/-- R201: a failure after some port transactions. -/
theorem raise_setPorts_spec (s : State) (p : Ports) (k : ErrorKind) :
    Failed s ((s.setPorts p).raise k) k :=
  ⟨rfl, rfl, rfl, rfl, rfl⟩

/-- R11: the upper byte of a byte extended to a word. -/
theorem zext_extractLsb'_high (b : Byte) : (zext b).extractLsb' 8 8 = 0x00 := by
  apply BitVec.eq_of_getLsbD_eq
  intro i hi
  simp [zext, BitVec.getLsbD_of_ge]

/-! ### Input -/

theorem exec_getc_byte {s : State} {b : Byte} (h : s.ports.inputAnswer = some (.byte b)) :
    exec .getc s = .next ((s.setPorts s.ports.afterInput).setReg .r0 (zext b)) := by
  rw [exec, execGetc, trapGetc, State.takeInput_eq, h]
  rfl

theorem exec_getc_fail {s : State} (h : s.ports.inputAnswer = some .fail) :
    exec .getc s = .next ((s.setPorts s.ports.afterInput).raise .ioFailure) := by
  rw [exec, execGetc, trapGetc, State.takeInput_eq, h]
  rfl

theorem exec_getc_unanswered {s : State} (h : s.ports.inputAnswer = none) :
    exec .getc s = .fault .inputNeverAnswers := by
  rw [exec, execGetc, trapGetc, State.takeInput_eq, h]
  rfl

/-! ### A row of bytes to the output port -/

/-- R194 to R198: every byte goes out. -/
theorem writeOut_accepted {s : State} {bs : List Byte} {n : Nat} (hn : bs.length = n)
    (h : s.ports.accepts n) :
    ∃ t, writeOut bs s = .next t ∧ s.sameData t ∧ t.status = s.status ∧
      t.ports = s.ports.afterOutputs n bs := by
  subst hn
  rw [writeOut, State.putBytes_accepted h]
  exact ⟨_, rfl, ⟨rfl, rfl, rfl, rfl⟩, rfl, rfl⟩

/-- R201, R202: the k-th byte fails. -/
theorem writeOut_failed {s : State} {bs : List Byte} {k : Nat} (hk : k < bs.length)
    (h : s.ports.accepts k) (hfail : s.ports.outputAnswer k = some .fail) :
    ∃ t, writeOut bs s = .next t ∧ Failed s t .ioFailure ∧
      t.ports = s.ports.afterOutputs (k + 1) (bs.take k) := by
  rw [writeOut, (State.putBytes_upTo hk h).1 hfail]
  exact ⟨_, rfl, raise_setPorts_spec s _ _, rfl⟩

/-- R191: the k-th byte is never answered. -/
theorem writeOut_unanswered {s : State} {bs : List Byte} {k : Nat} (hk : k < bs.length)
    (h : s.ports.accepts k) (hnone : s.ports.outputAnswer k = none) :
    writeOut bs s = .fault .outputNeverAnswers := by
  rw [writeOut, (State.putBytes_upTo hk h).2 hnone]

theorem Ports.accepts_zero (p : Ports) : p.accepts 0 := fun _ hk => absurd hk (Nat.not_lt_zero _)

theorem Ports.accepts_succ_iff {p : Ports} {n : Nat} :
    p.accepts (n + 1) ↔ p.accepts n ∧ p.outputAnswer n = some .ok :=
  Nat.forall_lt_succ_right

/-- R194: OUT is the row of R0's low byte. -/
theorem exec_out (s : State) : exec .out s = writeOut [(s.reg .r0).extractLsb' 0 8] s :=
  trapOut_eq s

/-! ### IN, stage by stage -/

theorem echoAndSet_accepted {s : State} (h : s.ports.outputAnswer 0 = some .ok) (b : Byte) :
    echoAndSet b s =
      .next ((s.setPorts (s.ports.afterOutputs 1 [b])).setReg .r0 (zext b)) := by
  rw [echoAndSet, State.putByte_eq, h]
  rfl

theorem echoAndSet_failed {s : State} (h : s.ports.outputAnswer 0 = some .fail) (b : Byte) :
    echoAndSet b s = .next ((s.setPorts (s.ports.afterOutputs 1 [])).raise .ioFailure) := by
  rw [echoAndSet, State.putByte_eq, h]
  rfl

theorem echoAndSet_unanswered {s : State} (h : s.ports.outputAnswer 0 = none) (b : Byte) :
    echoAndSet b s = .fault .outputNeverAnswers := by
  rw [echoAndSet, State.putByte_eq, h]
  rfl

theorem readAndEcho_byte {s : State} {b : Byte} (h : s.ports.inputAnswer = some (.byte b)) :
    readAndEcho s = echoAndSet b (s.setPorts s.ports.afterInput) := by
  rw [readAndEcho, State.takeInput_eq, h]
  rfl

theorem readAndEcho_fail {s : State} (h : s.ports.inputAnswer = some .fail) :
    readAndEcho s = .next ((s.setPorts s.ports.afterInput).raise .ioFailure) := by
  rw [readAndEcho, State.takeInput_eq, h]
  rfl

theorem readAndEcho_unanswered {s : State} (h : s.ports.inputAnswer = none) :
    readAndEcho s = .fault .inputNeverAnswers := by
  rw [readAndEcho, State.takeInput_eq, h]
  rfl

section Prompt

variable {prompt : List Byte} {s : State}

/-- R201, R202: the k-th byte of the prompt fails. -/
theorem trapInWith_prompt_failed {k : Nat} (hk : k < prompt.length) (h : s.ports.accepts k)
    (hfail : s.ports.outputAnswer k = some .fail) :
    trapInWith prompt s = .next
      ((s.setPorts (s.ports.afterOutputs (k + 1) (prompt.take k))).raise .ioFailure) := by
  rw [trapInWith, (State.putBytes_upTo hk h).1 hfail]

/-- R191: the k-th byte of the prompt is never answered. -/
theorem trapInWith_prompt_unanswered {k : Nat} (hk : k < prompt.length) (h : s.ports.accepts k)
    (hnone : s.ports.outputAnswer k = none) :
    trapInWith prompt s = .fault .outputNeverAnswers := by
  rw [trapInWith, (State.putBytes_upTo hk h).2 hnone]

/-- R197: after an accepted prompt, IN goes on with its input. -/
theorem trapInWith_prompt_accepted (h : s.ports.accepts prompt.length) :
    trapInWith prompt s =
      readAndEcho (s.setPorts (s.ports.afterOutputs prompt.length prompt)) := by
  rw [trapInWith, State.putBytes_accepted h]

theorem trapInWith_input_failed (h : s.ports.accepts prompt.length)
    (hin : s.ports.inputAnswer = some .fail) :
    trapInWith prompt s = .next
      ((s.setPorts (s.ports.afterInput.afterOutputs prompt.length prompt)).raise .ioFailure) :=
  (trapInWith_prompt_accepted h).trans (readAndEcho_fail hin)

theorem trapInWith_input_unanswered (h : s.ports.accepts prompt.length)
    (hin : s.ports.inputAnswer = none) :
    trapInWith prompt s = .fault .inputNeverAnswers :=
  (trapInWith_prompt_accepted h).trans (readAndEcho_unanswered hin)

/-- R197: after an accepted prompt and a byte, IN goes on with the byte's echo. -/
theorem trapInWith_input_byte {b : Byte} (h : s.ports.accepts prompt.length)
    (hin : s.ports.inputAnswer = some (.byte b)) :
    trapInWith prompt s =
      echoAndSet b (s.setPorts (s.ports.afterInput.afterOutputs prompt.length prompt)) :=
  (trapInWith_prompt_accepted h).trans (readAndEcho_byte hin)

/-- The echo's answer is the one after the prompt's. -/
theorem Ports.outputAnswer_echo (p : Ports) (bs : List Byte) :
    (p.afterInput.afterOutputs bs.length bs).outputAnswer 0 = p.outputAnswer bs.length := by
  rw [Ports.outputAnswer_afterOutputs, Ports.outputAnswer_afterInput, Nat.add_zero]

theorem trapInWith_echo_accepted {b : Byte} (h : s.ports.accepts (prompt.length + 1))
    (hin : s.ports.inputAnswer = some (.byte b)) :
    trapInWith prompt s = .next ((s.setPorts (s.ports.afterInput.afterOutputs
      (prompt.length + 1) (prompt ++ [b]))).setReg .r0 (zext b)) := by
  obtain ⟨hprompt, hecho⟩ := Ports.accepts_succ_iff.1 h
  rw [← Ports.outputAnswer_echo] at hecho
  rw [trapInWith_input_byte hprompt hin, echoAndSet_accepted hecho, State.setPorts_ports,
    State.setPorts_setPorts, Ports.afterOutputs_afterOutputs]

theorem trapInWith_echo_failed {b : Byte} (h : s.ports.accepts prompt.length)
    (hin : s.ports.inputAnswer = some (.byte b))
    (hecho : s.ports.outputAnswer prompt.length = some .fail) :
    trapInWith prompt s = .next ((s.setPorts (s.ports.afterInput.afterOutputs
      (prompt.length + 1) prompt)).raise .ioFailure) := by
  rw [← Ports.outputAnswer_echo] at hecho
  rw [trapInWith_input_byte h hin, echoAndSet_failed hecho, State.setPorts_ports,
    State.setPorts_setPorts, Ports.afterOutputs_afterOutputs, List.append_nil]

theorem trapInWith_echo_unanswered {b : Byte} (h : s.ports.accepts prompt.length)
    (hin : s.ports.inputAnswer = some (.byte b))
    (hecho : s.ports.outputAnswer prompt.length = none) :
    trapInWith prompt s = .fault .outputNeverAnswers := by
  rw [← Ports.outputAnswer_echo] at hecho
  rw [trapInWith_input_byte h hin, echoAndSet_unanswered hecho]

end Prompt

/-- R197, D14: IN is the primitive with the prompt `IN_PROMPT`. -/
theorem exec_inChar (s : State) : exec .inChar s = trapInWith Config.inPrompt s := rfl

/-! ### The statements -/

/-- Settles O50: the word is the encoding, and the execute phase is the next input answer's case. -/
theorem getcReadsOneByte : Obligations.GetcReadsOneByte := by
  unfold Obligations.GetcReadsOneByte
  refine ⟨decode_eq_ok_iff_encode.2 ⟨rfl, rfl⟩, fun s b h => ?_,
    fun s h => ⟨_, exec_getc_fail h, raise_setPorts_spec s _ _, rfl⟩⟩
  have hbyte := setReg_r0_spec s s.ports.afterInput b
  have ⟨hr0, _⟩ := hbyte
  exact ⟨_, exec_getc_byte h, hbyte, hr0 ▸ zext_extractLsb'_high b, rfl⟩

/-- Settles O51: the word is the encoding, and the execute phase a row of one byte. -/
theorem outWritesTheLowByte : Obligations.OutWritesTheLowByte := by
  unfold Obligations.OutWritesTheLowByte
  refine ⟨decode_eq_ok_iff_encode.2 ⟨rfl, rfl⟩, fun s h => ?_, fun s h => ?_⟩
  · rw [exec_out]
    exact writeOut_accepted rfl (Ports.accepts_succ_iff.2 ⟨Ports.accepts_zero _, h⟩)
  · rw [exec_out]
    exact writeOut_failed Nat.one_pos (Ports.accepts_zero _) h

/-- Settles O54: the word is the encoding, and each stage is the case of its port's answer. -/
theorem inPromptsReadsAndEchoes : Obligations.InPromptsReadsAndEchoes := by
  unfold Obligations.InPromptsReadsAndEchoes
  exact ⟨decode_eq_ok_iff_encode.2 ⟨rfl, rfl⟩,
    fun s b h hin => ⟨_, trapInWith_echo_accepted h hin, setReg_r0_spec s _ b, rfl⟩,
    exec_inChar,
    fun _ s _ hk h hfail =>
      ⟨_, trapInWith_prompt_failed hk h hfail, raise_setPorts_spec s _ _, rfl⟩,
    fun _ s h hin => ⟨_, trapInWith_input_failed h hin, raise_setPorts_spec s _ _, rfl⟩,
    fun _ s _ h hin hecho =>
      ⟨_, trapInWith_echo_failed h hin hecho, raise_setPorts_spec s _ _, rfl⟩⟩

end Sys2Proof.Machine
end

section
/-! SUPPORT. The walks of PUTS and PUTSP (R195, R196, R198): a terminated string is the row of its
bytes, and one with no terminator below 65536 is an address error; with the statements about both,
and the one about the transactions that no environment answers (R191). -/

namespace Sys2Proof.Machine

/-! ### PUTS -/

theorem putsWalk_of_terminator {m : Memory} {a : Nat} (ha : a < 65536)
    (hw : m.cellAt a = 0x0000) (n : Nat) : putsWalk m (n + 1) a = .ok [] := by
  rw [putsWalk, Memory.read_of_lt ha]
  exact if_pos hw

theorem putsWalk_of_char {m : Memory} {a : Nat} (ha : a < 65536) (hw : m.cellAt a ≠ 0x0000)
    (n : Nat) :
    putsWalk m (n + 1) a = (putsWalk m n (a + 1)).map (lowByte (m.cellAt a) :: ·) := by
  rw [putsWalk, Memory.read_of_lt ha]
  refine (if_neg hw).trans ?_
  cases putsWalk m n (a + 1) <;> rfl

theorem putsString_succ_iff {m : Memory} {a n : Nat} :
    putsString m a (n + 1) ↔ m.cellAt a ≠ 0x0000 ∧ putsString m (a + 1) n := by
  simp only [putsString, Nat.forall_lt_succ_left, Nat.add_zero, Nat.add_right_comm a 1,
    Nat.add_assoc]
  tauto

theorem putsBytes_succ (m : Memory) (a n : Nat) :
    putsBytes m a (n + 1) = lowByte (m.cellAt a) :: putsBytes m (a + 1) n := by
  simp [putsBytes, List.range_succ_eq_map, Function.comp_def, Nat.add_assoc, Nat.add_comm 1]

@[simp] theorem length_putsBytes (m : Memory) (a n : Nat) : (putsBytes m a n).length = n := by
  simp [putsBytes]

/-- R196: a string that ends within the cells of the walk is collected whole. -/
theorem putsWalk_of_string {m : Memory} {a n cells : Nat} (h : putsString m a n)
    (hn : n < cells) : putsWalk m cells a = .ok (putsBytes m a n) := by
  induction n generalizing a cells with
  | zero =>
    obtain ⟨ha, -, hend⟩ := h
    obtain ⟨cells, rfl⟩ := Nat.exists_eq_add_one.2 hn
    exact putsWalk_of_terminator ha hend cells
  | succ n ih =>
    have ⟨ha, _, _⟩ := h
    obtain ⟨hchar, hrest⟩ := putsString_succ_iff.1 h
    obtain ⟨cells, rfl⟩ := Nat.exists_eq_add_one.2 (Nat.zero_lt_of_lt hn)
    rw [putsWalk_of_char (by omega) hchar, ih hrest (by omega), putsBytes_succ]
    rfl

/-- R195: a walk of nonzero words to the top of memory. -/
theorem putsWalk_unterminated {m : Memory} {a cells : Nat} (htop : a + cells = 65536)
    (h : ∀ b, a ≤ b → b < 65536 → m.cellAt b ≠ 0x0000) :
    putsWalk m cells a = .error .outOfBounds := by
  induction cells generalizing a with
  | zero => rfl
  | succ cells ih =>
    rw [putsWalk_of_char (by omega) (h a le_rfl (by omega)), ih (by omega)
      fun b hab => h b (by omega)]
    rfl

/-! ### PUTSP -/

theorem putspWalk_of_low_zero {m : Memory} {a : Nat} (ha : a < 65536)
    (hlow : lowByte (m.cellAt a) = 0x00) (n : Nat) : putspWalk m (n + 1) a = .ok [] := by
  rw [putspWalk, Memory.read_of_lt ha]
  exact if_pos hlow

theorem putspWalk_of_high_zero {m : Memory} {a : Nat} (ha : a < 65536)
    (hlow : lowByte (m.cellAt a) ≠ 0x00) (hhigh : highByte (m.cellAt a) = 0x00) (n : Nat) :
    putspWalk m (n + 1) a = .ok [lowByte (m.cellAt a)] := by
  rw [putspWalk, Memory.read_of_lt ha]
  exact (if_neg hlow).trans (if_pos hhigh)

theorem putspWalk_of_chars {m : Memory} {a : Nat} (ha : a < 65536)
    (hlow : lowByte (m.cellAt a) ≠ 0x00) (hhigh : highByte (m.cellAt a) ≠ 0x00) (n : Nat) :
    putspWalk m (n + 1) a = (putspWalk m n (a + 1)).map
      fun cs => lowByte (m.cellAt a) :: highByte (m.cellAt a) :: cs := by
  rw [putspWalk, Memory.read_of_lt ha]
  refine (if_neg hlow).trans ((if_neg hhigh).trans ?_)
  cases putspWalk m n (a + 1) <;> rfl

theorem putspByte_zero (m : Memory) (a : Nat) : putspByte m a 0 = lowByte (m.cellAt a) := rfl

theorem putspByte_one (m : Memory) (a : Nat) : putspByte m a 1 = highByte (m.cellAt a) := rfl

/-- R198: two bytes on is one word on. -/
theorem putspByte_add_two (m : Memory) (a j : Nat) :
    putspByte m a (j + 2) = putspByte m (a + 1) j := by
  have haddr : a + (j + 2) / 2 = a + 1 + j / 2 := by omega
  rw [putspByte, putspByte, Nat.add_mod_right, haddr]

/-- R198: a packed string of at least two bytes is its first word and a string from the next. -/
theorem putspString_of_add_two {m : Memory} {a n : Nat} (h : putspString m a (n + 2)) :
    lowByte (m.cellAt a) ≠ 0x00 ∧ highByte (m.cellAt a) ≠ 0x00 ∧ putspString m (a + 1) n := by
  obtain ⟨htop, hchars, hend⟩ := h
  refine ⟨hchars 0 (by omega), hchars 1 (by omega), by omega, fun j hj => ?_, ?_⟩
  · rw [← putspByte_add_two]
    exact hchars (j + 2) (by omega)
  · rw [← putspByte_add_two]
    exact hend

theorem putspBytes_add_two (m : Memory) (a n : Nat) :
    putspBytes m a (n + 2) =
      lowByte (m.cellAt a) :: highByte (m.cellAt a) :: putspBytes m (a + 1) n := by
  simp [putspBytes, List.range_succ_eq_map, Function.comp_def, putspByte_zero, putspByte_one,
    putspByte_add_two]

@[simp] theorem length_putspBytes (m : Memory) (a n : Nat) : (putspBytes m a n).length = n := by
  simp [putspBytes]

/-- R198: a packed string that ends within the cells of the walk is collected whole. -/
theorem putspWalk_of_string {m : Memory} {a n cells : Nat} (h : putspString m a n)
    (hn : n / 2 < cells) : putspWalk m cells a = .ok (putspBytes m a n) := by
  induction cells generalizing a n with
  | zero => exact absurd hn (Nat.not_lt_zero _)
  | succ cells ih =>
    match n, h with
    | 0, ⟨ha, _, hend⟩ => exact putspWalk_of_low_zero ha hend cells
    | 1, ⟨ha, hlow, hend⟩ => exact putspWalk_of_high_zero ha (hlow 0 Nat.one_pos) hend cells
    | n + 2, h =>
      have ⟨ha, _, _⟩ := h
      obtain ⟨hlow, hhigh, hrest⟩ := putspString_of_add_two h
      rw [putspWalk_of_chars (by omega) hlow hhigh, ih hrest (by omega), putspBytes_add_two]
      rfl

/-- R195: a walk of words with no zero byte to the top of memory. -/
theorem putspWalk_unterminated {m : Memory} {a cells : Nat} (htop : a + cells = 65536)
    (h : ∀ j, a + j / 2 < 65536 → putspByte m a j ≠ 0x00) :
    putspWalk m cells a = .error .outOfBounds := by
  induction cells generalizing a with
  | zero => rfl
  | succ cells ih =>
    have hrest : ∀ j, a + 1 + j / 2 < 65536 → putspByte m (a + 1) j ≠ 0x00 := fun j hj =>
      putspByte_add_two m a j ▸ h (j + 2) (by omega)
    have hlow : lowByte (m.cellAt a) ≠ 0x00 := h 0 (by omega)
    have hhigh : highByte (m.cellAt a) ≠ 0x00 := h 1 (by omega)
    rw [putspWalk_of_chars (by omega) hlow hhigh, ih (by omega) hrest]
    rfl

/-! ### The execute phases -/

theorem add_cellsFrom (a : Word) : a.toNat + cellsFrom a = 65536 :=
  Nat.add_sub_cancel' a.isLt.le

theorem exec_puts_of_string {s : State} {n : Nat} (h : putsString s.mem (s.reg .r0).toNat n) :
    exec .puts s = writeOut (putsBytes s.mem (s.reg .r0).toNat n) s := by
  have ⟨htop, _, _⟩ := h
  have hn : n < cellsFrom (s.reg .r0) := by
    have := add_cellsFrom (s.reg .r0)
    omega
  rw [exec, execPuts, trapPuts, putsWalk_of_string h hn, writeWalked]

theorem exec_puts_unterminated {s : State}
    (h : ∀ a : Nat, (s.reg .r0).toNat ≤ a → a < 65536 → s.mem.cellAt a ≠ 0x0000) :
    exec .puts s = .next (s.raise .outOfBounds) := by
  rw [exec, execPuts, trapPuts, putsWalk_unterminated (add_cellsFrom _) h, writeWalked]

theorem exec_putsp_of_string {s : State} {n : Nat} (h : putspString s.mem (s.reg .r0).toNat n) :
    exec .putsp s = writeOut (putspBytes s.mem (s.reg .r0).toNat n) s := by
  have ⟨htop, _, _⟩ := h
  have hn : n / 2 < cellsFrom (s.reg .r0) := by
    have := add_cellsFrom (s.reg .r0)
    omega
  rw [exec, execPutsp, trapPutsp, putspWalk_of_string h hn, writeWalked]

theorem exec_putsp_unterminated {s : State}
    (h : ∀ j : Nat, (s.reg .r0).toNat + j / 2 < 65536 →
      putspByte s.mem (s.reg .r0).toNat j ≠ 0x00) :
    exec .putsp s = .next (s.raise .outOfBounds) := by
  rw [exec, execPutsp, trapPutsp, putspWalk_unterminated (add_cellsFrom _) h, writeWalked]

/-! ### The statements -/

/-- Settles O52: the walk collects the string or fails before any output, and the execute phase is
the row of its bytes. -/
theorem putsWritesTheString : Obligations.PutsWritesTheString := by
  unfold Obligations.PutsWritesTheString
  refine ⟨decode_eq_ok_iff_encode.2 ⟨rfl, rfl⟩, fun s n hstr h => ?_,
    fun s n k hstr hk h hfail => ?_, fun s h => ⟨_, exec_puts_unterminated h, raise_spec s _⟩⟩
  · rw [exec_puts_of_string hstr]
    exact writeOut_accepted (length_putsBytes _ _ n) h
  · rw [exec_puts_of_string hstr]
    exact writeOut_failed (by simpa using hk) h hfail

/-- Settles O53: the walk collects the packed string or fails before any output, and the execute
phase is the row of its bytes. -/
theorem putspWritesThePackedString : Obligations.PutspWritesThePackedString := by
  unfold Obligations.PutspWritesThePackedString
  refine ⟨decode_eq_ok_iff_encode.2 ⟨rfl, rfl⟩, fun s n hstr h => ?_,
    fun s n k hstr hk h hfail => ?_, fun s h => ⟨_, exec_putsp_unterminated h, raise_spec s _⟩⟩
  · rw [exec_putsp_of_string hstr]
    exact writeOut_accepted (length_putspBytes _ _ n) h
  · rw [exec_putsp_of_string hstr]
    exact writeOut_failed (by simpa using hk) h hfail

/-- R191: a step is never refused, and a fault has its unanswered transaction in a script. -/
theorem step_stops (s : State) :
    (∀ r, step s ≠ .refused r) ∧
      (step s = .fault .inputNeverAnswers → none ∈ s.ports.inputScript) ∧
      (step s = .fault .outputNeverAnswers → none ∈ s.ports.outputScript) := by
  have h := step_accountedFor s
  refine ⟨fun r hr => ?_, fun hin => ?_, fun hout => ?_⟩
  · rw [hr] at h; exact h
  · rw [hin] at h; exact h
  · rw [hout] at h; exact h

/-- Settles O16: the outcomes a step can have, and for each primitive the unanswered case of each of
its transactions. -/
theorem onlyAnUnansweredTransactionEndsNoStep :
    Obligations.OnlyAnUnansweredTransactionEndsNoStep := by
  unfold Obligations.OnlyAnUnansweredTransactionEndsNoStep
  refine ⟨step_stops, fun s => exec_getc_unanswered, fun s hnone => ?_,
    fun s n k hstr hk h hnone => ?_, fun s n k hstr hk h hnone => ?_, exec_inChar,
    fun _ _ _ => trapInWith_prompt_unanswered, fun _ _ => trapInWith_input_unanswered,
    fun _ _ _ => trapInWith_echo_unanswered⟩
  · rw [exec_out]
    exact writeOut_unanswered Nat.one_pos (Ports.accepts_zero _) hnone
  · rw [exec_puts_of_string hstr]
    exact writeOut_unanswered (by simpa using hk) h hnone
  · rw [exec_putsp_of_string hstr]
    exact writeOut_unanswered (by simpa using hk) h hnone

end Sys2Proof.Machine
end

section
/-! SUPPORT. The reserved opcodes (45_reserved.md): the words that decode to RTI and RES, the step
that fetches one, and the statement about them. -/

namespace Sys2Proof.Machine

/-- R230: whatever follows the opcode, the word is the encoding of an RTI. -/
theorem decode_rti (x : BitVec 12) : decode (0x8#4 ++ x) = .ok (.rti x) :=
  decode_eq_ok_iff_encode.2 ⟨rfl, rfl⟩

/-- R231: whatever follows the opcode, the word is the encoding of a RES. -/
theorem decode_res (x : BitVec 12) : decode (0xD#4 ++ x) = .ok (.res x) :=
  decode_eq_ok_iff_encode.2 ⟨rfl, rfl⟩

/-- R230, R231: a word with a reserved opcode decodes to an instruction that can raise
`InvalidOpcode`. -/
theorem decode_of_reserved {w : Word} (hop : w.extractLsb' 12 4 = 0x8 ∨ w.extractLsb' 12 4 = 0xD) :
    ∃ i, decode w = .ok i ∧ mayRaise i .invalidOpcode = true := by
  rcases hop with h8 | hD
  · have hw : 0x8#4 ++ w.extractLsb' 0 12 = w := append_4_12_eq_iff.2 ⟨h8, rfl⟩
    exact ⟨_, hw ▸ decode_rti _, rfl⟩
  · have hw : 0xD#4 ++ w.extractLsb' 0 12 = w := append_4_12_eq_iff.2 ⟨hD, rfl⟩
    exact ⟨_, hw ▸ decode_res _, rfl⟩

/-- R80, R230, R231: a step that fetches an instruction that can raise `InvalidOpcode`. -/
theorem step_of_mayRaise_invalidOpcode {s : State} {w : Word} {i : Instr} (hf : Fetches s w)
    (hd : decode w = .ok i) (hi : mayRaise i .invalidOpcode = true) :
    step s = .next (s.advance.raise .invalidOpcode) := by
  obtain ⟨hrun, rfl⟩ := hf
  rw [step_of_decode hrun hd, exec_of_mayRaise_invalidOpcode hi]

/-- Settles O56: a reserved word decodes to RTI or RES, and both only raise; the step raises after
the fetch increment. -/
theorem reservedOpcodesRaiseInvalidOpcode : Obligations.ReservedOpcodesRaiseInvalidOpcode := by
  unfold Obligations.ReservedOpcodesRaiseInvalidOpcode
  refine ⟨fun x => ⟨decode_rti x, decode_res x⟩,
    fun _ s => ⟨_, exec_of_mayRaise_invalidOpcode rfl s, raise_spec s _⟩,
    fun _ s => ⟨_, exec_of_mayRaise_invalidOpcode rfl s, raise_spec s _⟩, fun s w hf hop => ?_⟩
  obtain ⟨i, hd, hi⟩ := decode_of_reserved hop
  exact ⟨_, step_of_mayRaise_invalidOpcode hf hd hi, raise_spec _ _⟩

end Sys2Proof.Machine
end

section
/-! SUPPORT. How a step changes the run status (60_exceptions.md R240 to R248): a stopped core stays
as it is, an error is raised over the state after the fetch, and the words that end a step with each
other status; with the statements about them. -/

namespace Sys2Proof.Machine

/-- R31, R285: the result of a core that has stopped is not `continue`. -/
theorem resultOf_ne_continue {st : Status} (h : st ≠ .running) : resultOf st ≠ .continue := by
  cases st with
  | running => exact absurd rfl h
  | halted | error => simp [resultOf]

/-! ### What an execute phase does to the status -/

/-- R240, R248: a TRAP or a reserved opcode keeps the status, raises an error or halts. -/
theorem TrapEffect.status_cases {i : Instr} {s t : State} (h : TrapEffect i s t) :
    t.status = s.status ∨ (∃ p k, t = (s.setPorts p).raise k) ∨
      (t.status = .halted ∧ (i = .halt ∨ i = .trap 0x25)) := by
  cases h with
  | continued | gotByte => exact .inl rfl
  | failed p k => exact .inr (.inl ⟨p, k, rfl⟩)
  | halted hi => exact .inr (.inr ⟨rfl, hi⟩)

/-- R240, R248: whatever the instruction, its execute phase keeps the status, raises an error over
the state it found or halts. -/
theorem ExecEffect.status_cases {i : Instr} {s t : State} (h : ExecEffect i s t) :
    t.status = s.status ∨ (∃ p k, t = (s.setPorts p).raise k) ∨
      (t.status = .halted ∧ (i = .halt ∨ i = .trap 0x25)) := by
  cases h with
  | flagged | stored | jumped | called => exact .inl rfl
  | trapped _ _ ht => exact ht.status_cases

/-- R241: an execute phase that ends with an error has changed only the ports and the status. -/
theorem ExecEffect.eq_raise {i : Instr} {s t : State} {k : ErrorKind} (h : ExecEffect i s t)
    (hs : s.status = .running) (ht : t.status = .error k) : ∃ p, t = (s.setPorts p).raise k := by
  rcases h.status_cases with hkept | ⟨p, k', rfl⟩ | ⟨hhalt, -⟩
  · simp [hkept, hs] at ht
  · cases ht; exact ⟨p, rfl⟩
  · simp [hhalt] at ht

/-- R200: an execute phase that halts is HALT's, under either of its table rows. -/
theorem ExecEffect.halt_of_status {i : Instr} {s t : State} (h : ExecEffect i s t)
    (hs : s.status = .running) (ht : t.status = .halted) : i = .halt ∨ i = .trap 0x25 := by
  rcases h.status_cases with hkept | ⟨p, k, rfl⟩ | ⟨-, hi⟩
  · simp [hkept, hs] at ht
  · cases ht
  · exact hi

/-! ### What a step does to the status -/

/-- R80, R92: a step that runs rejects its word, or is the execute phase of the instruction that the
word encodes. -/
theorem step_cases_of_fetches {s t : State} {w : Word} (hf : Fetches s w) (h : step s = .next t) :
    t = s.advance.raise .invalidOpcode ∨ ∃ i, encode i = w ∧ exec i s.advance = .next t := by
  obtain ⟨hrun, rfl⟩ := hf
  rcases step_next_cases h with ⟨hstop, -⟩ | ⟨-, -, ht⟩ | ⟨-, i, hd, hi, -⟩
  · exact absurd hrun hstop
  · exact .inl ht
  · exact .inr ⟨i, (decode_eq_ok_iff_encode.1 hd).2, hi⟩

/-- R241: a step that raises an error leaves the state after the fetch increment, but for the ports
and the status. -/
theorem step_eq_raise {s t : State} {w : Word} {k : ErrorKind} (hf : Fetches s w)
    (h : step s = .next t) (ht : t.status = .error k) :
    ∃ p, t = (s.advance.setPorts p).raise k := by
  rcases step_cases_of_fetches hf h with rfl | ⟨i, -, hi⟩
  · cases ht; exact ⟨s.ports, rfl⟩
  · exact (exec_effect hi).eq_raise hf.1 ht

/-- R240: an instruction that raises another error than `InvalidOpcode` is a TRAP, and its vector
raises it. -/
theorem trapWord_of_mayRaise {i : Instr} {k : ErrorKind} (hi : mayRaise i k = true)
    (hk : k ≠ .invalidOpcode) :
    ∃ v : BitVec 8, encode i = 0xF#4 ++ 0x0#4 ++ v ∧ vectorMayRaise v k = true := by
  cases i with
  | getc | out | puts | inChar | putsp | halt | trap => exact ⟨_, rfl, hi⟩
  | rti | res => exact absurd (of_decide_eq_true hi) hk
  | _ => cases hi

/-- R240: a step that ends with another error than `InvalidOpcode` fetched the TRAP word of a vector
that raises it. -/
theorem trapWord_of_step_error {s t : State} {w : Word} {k : ErrorKind} (hf : Fetches s w)
    (h : step s = .next t) (ht : t.status = .error k) (hk : k ≠ .invalidOpcode) :
    ∃ v : BitVec 8, w = 0xF#4 ++ 0x0#4 ++ v ∧ vectorMayRaise v k = true := by
  rcases step_cases_of_fetches hf h with rfl | ⟨i, rfl, hi⟩
  · cases ht; exact absurd rfl hk
  · exact trapWord_of_mayRaise (mayRaise_of_exec hi hf.1 ht) hk

/-- R83, R200: a step that runs ends `Halted` exactly when it fetched the word of HALT. -/
theorem step_halted_iff {s t : State} {w : Word} (hf : Fetches s w) (h : step s = .next t) :
    t.status = .halted ↔ w = 0xF025 := by
  constructor
  · intro ht
    rcases step_cases_of_fetches hf h with rfl | ⟨i, rfl, hi⟩
    · cases ht
    · rcases (exec_effect hi).halt_of_status hf.1 ht with rfl | rfl <;> rfl
  · rintro rfl
    rw [step_of_halt hf] at h
    cases h
    rfl

/-- R193 to R198: the vectors that raise `OutOfBounds`. -/
theorem vectorMayRaise_outOfBounds {v : BitVec 8} (h : vectorMayRaise v .outOfBounds = true) :
    v = 0x22 ∨ v = 0x24 := by
  simpa [vectorMayRaise] using h

/-- R193 to R198: the vectors that raise `IOFailure`. -/
theorem vectorMayRaise_ioFailure {v : BitVec 8} (h : vectorMayRaise v .ioFailure = true) :
    v = 0x20 ∨ v = 0x21 ∨ v = 0x22 ∨ v = 0x23 ∨ v = 0x24 := by
  simp only [vectorMayRaise, Bool.and_eq_true, decide_eq_true_eq] at h
  bv_omega

/-! ### The statements -/

/-- Settles O17: a stopped core's step is the identity, and a host call that succeeds writes the
memory or `pc` alone. -/
theorem haltedAndErrorAreSticky : Obligations.HaltedAndErrorAreSticky := by
  unfold Obligations.HaltedAndErrorAreSticky
  intro s hstop
  have hstep : step s = .next s := step_of_stopped hstop
  refine ⟨hstep, hostStep_of_step hstep, resultOf_ne_continue hstop, fun ws o t h => ?_,
    fun a t h => ?_⟩
  · obtain ⟨-, rfl⟩ := loadImage_ok h
    rfl
  · obtain ⟨-, rfl⟩ := hostSetPc_ok h
    rfl

/-- Settles O18: the state is the one after the fetch increment with the error raised over it, and
the increment is undone by subtracting 1. -/
theorem errorLeavesTheStateAfterTheFetch : Obligations.ErrorLeavesTheStateAfterTheFetch := by
  unfold Obligations.ErrorLeavesTheStateAfterTheFetch
  intro s t k hrun h ht
  have hhost : hostStep s = .next (.error k, t) := by rw [hostStep_of_step h, ht, resultOf]
  obtain ⟨p, rfl⟩ := step_eq_raise ⟨hrun, rfl⟩ h ht
  exact ⟨rfl, rfl, rfl, rfl, hhost, BitVec.add_sub_cancel s.pc 1⟩

/-- Settles O19: an error other than `InvalidOpcode` comes from a TRAP word whose vector raises it,
and `Halted` from the word of HALT alone. -/
theorem otherStatusesComeFromTheirTraps : Obligations.OtherStatusesComeFromTheirTraps := by
  unfold Obligations.OtherStatusesComeFromTheirTraps
  refine fun s t w hf h => ⟨fun ht => ?_, fun ht => ?_, step_halted_iff hf h⟩
  · obtain ⟨v, rfl, hv⟩ := trapWord_of_step_error hf h ht (by simp)
    rcases vectorMayRaise_outOfBounds hv with rfl | rfl <;> simp
  · obtain ⟨v, rfl, hv⟩ := trapWord_of_step_error hf h ht (by simp)
    rcases vectorMayRaise_ioFailure hv with rfl | rfl | rfl | rfl | rfl <;> simp

end Sys2Proof.Machine
end

section
/-! SUPPORT. The host's calls between steps (R282 to R284) on both sides of their bounds, and a run
from reset with nothing loaded (R281), with the statements about them. -/

namespace Sys2Proof.Machine

/-! ### The bounds of the calls -/

theorem loadImage_of_le {ws : List Word} {o : Nat} (h : o + ws.length ≤ memorySize) (s : State) :
    loadImage ws o s = .ok (s.setMem (copyWords s.mem o ws)) := by
  rw [loadImage, if_pos h]

theorem loadImage_of_gt {ws : List Word} {o : Nat} (h : memorySize < o + ws.length) (s : State) :
    loadImage ws o s = .error .outOfBounds := by
  rw [loadImage, if_neg (Nat.not_le.2 h)]

theorem hostSetPc_of_lt {a : Nat} (h : a < memorySize) (s : State) :
    hostSetPc a s = .ok (s.setPc (BitVec.ofNat 16 a)) := by
  rw [hostSetPc, if_pos h]

theorem hostSetPc_of_ge {a : Nat} (h : memorySize ≤ a) (s : State) :
    hostSetPc a s = .error .outOfBounds := by
  rw [hostSetPc, if_neg (Nat.not_lt.2 h)]

/-! ### The cells of an image -/

/-- R282: a cell outside the image is as before. -/
theorem cellAt_copyWords_outside {m : Memory} (hm : m.wf = true) {o a : Nat} {ws : List Word}
    (ho : o + ws.length ≤ memorySize) (ha : a < o ∨ o + ws.length ≤ a) :
    (copyWords m o ws).cellAt a = m.cellAt a := by
  induction ws generalizing m o with
  | nil => rfl
  | cons w ws ih =>
    rw [List.length_cons] at ho ha
    have hm' : (m.setCell o w).wf = true := Memory.setCell_wf hm (by omega) w
    have ho' : o + 1 + ws.length ≤ memorySize := by omega
    rw [copyWords, ih hm' ho' (by omega), Memory.cellAt_setCell hm, if_neg (by omega)]

/-- R282: `MEM[o + k]` is the image's word `k`. The first word is outside the image of the rest. -/
theorem cellAt_copyWords_word {m : Memory} (hm : m.wf = true) {o k : Nat} {ws : List Word}
    (ho : o + ws.length ≤ memorySize) (hk : k < ws.length) :
    (copyWords m o ws).cellAt (o + k) = ws[k] := by
  induction ws generalizing m o k with
  | nil => exact absurd hk (Nat.not_lt_zero k)
  | cons w ws ih =>
    rw [List.length_cons] at ho hk
    have hm' : (m.setCell o w).wf = true := Memory.setCell_wf hm (by omega) w
    have ho' : o + 1 + ws.length ≤ memorySize := by omega
    rw [copyWords]
    cases k with
    | zero =>
      rw [cellAt_copyWords_outside hm' ho' (.inl (by omega)), Memory.cellAt_setCell hm,
        Nat.add_zero, if_pos rfl, List.getElem_cons_zero]
    | succ k =>
      have hrest := ih hm' ho' (Nat.lt_of_succ_lt_succ hk)
      rwa [Nat.add_right_comm, Nat.add_assoc] at hrest

/-! ### The bytes of an image file -/

/-- R284: the bytes of a row of words, each with its high byte first, read back as those words. -/
theorem wordsOfBytes_flatMap (ws : List Word) :
    wordsOfBytes (ws.flatMap fun w => [w.extractLsb' 8 8, w.extractLsb' 0 8]) = some ws := by
  induction ws with
  | nil => rfl
  | cons w ws ih =>
    have hw : w.extractLsb' 8 8 ++ w.extractLsb' 0 8 = w := append_eq_iff.2 ⟨rfl, rfl⟩
    rw [List.flatMap_cons, List.cons_append, List.cons_append, List.nil_append, wordsOfBytes, ih,
      Option.map_some, hw]

/-! ### The run through an empty memory -/

/-- R87, R170: a step that fetches a BR with an empty mask is the fetch increment alone. -/
theorem step_of_le_01FF {s : State} {w : Word} (hf : Fetches s w) (hw : w ≤ 0x01FF) :
    step s = .next s.advance := by
  obtain ⟨hrun, rfl⟩ := hf
  rw [step_of_decode hrun (decode_of_le_01FF hw), exec_br_never]

/-- R60: with nothing in memory every fetch reads 0x0000. -/
theorem fetches_of_mem_nil {s : State} (hrun : s.status = .running) (hmem : s.mem = []) :
    Fetches s 0x0000 := by
  refine ⟨hrun, ?_⟩
  rw [State.fetchWord, State.load_eq, hmem, Memory.cellAt_nil, Memory.unlisted]

/-- R281: `n` steps through an empty memory are `n` fetch increments. -/
theorem run_of_mem_nil (n : Nat) {s : State} (hrun : s.status = .running) (hmem : s.mem = []) :
    Host.Core.run Sys2Proof.core n s = .next (s.setPc (s.pc + BitVec.ofNat 16 n)) := by
  induction n generalizing s with
  | zero => rw [BitVec.add_zero]; rfl
  | succ n ih =>
    have hstep : step s = .next s.advance :=
      step_of_le_01FF (fetches_of_mem_nil hrun hmem) (by decide)
    have hpc : s.pc + 1 + BitVec.ofNat 16 n = s.pc + BitVec.ofNat 16 (n + 1) := by
      rw [BitVec.add_assoc, BitVec.ofNat_add, BitVec.add_comm (BitVec.ofNat 16 n)]
      rfl
    calc Host.Core.run Sys2Proof.core (n + 1) s
        = Host.Core.run Sys2Proof.core n s.advance := run_succ Sys2Proof.core hstep
      _ = .next (s.setPc (s.pc + 1 + BitVec.ofNat 16 n)) := ih hrun hmem
      _ = .next (s.setPc (s.pc + BitVec.ofNat 16 (n + 1))) := by rw [hpc]

/-! ### The statements -/

/-- Settles O21: reset is a running state with nothing in memory and `pc` zero. -/
theorem emptyMemoryRunCycles : Obligations.EmptyMemoryRunCycles := by
  unfold Obligations.EmptyMemoryRunCycles
  intro n
  have hpc : State.reset.pc + BitVec.ofNat 16 n = BitVec.ofNat 16 n := BitVec.zero_add _
  rw [run_of_mem_nil n rfl rfl, hpc]

/-- Settles O57: the cells of the image and those outside it, and the frame by the one write of
memory. -/
theorem loadImageCopiesTheWords : Obligations.LoadImageCopiesTheWords := by
  unfold Obligations.LoadImageCopiesTheWords
  refine fun ws o s => ⟨fun ho hm => ?_, fun ho => loadImage_of_gt ho s⟩
  exact ⟨_, loadImage_of_le ho s, fun k hk => cellAt_copyWords_word hm ho hk,
    fun a ha => cellAt_copyWords_outside hm ho ha, rfl, rfl, rfl, rfl, rfl, copyWords_wf hm ho⟩

/-- Settles O59: the first word read back is the origin. -/
theorem imageBytesAreBigEndian : Obligations.ImageBytesAreBigEndian := by
  unfold Obligations.ImageBytesAreBigEndian
  intro origin ws
  rw [parseImage, wordsOfBytes_flatMap]

/-- Settles O58: the two sides of the bound; below it the address is its own value modulo 2^16. -/
theorem setPcChecksItsAddress : Obligations.SetPcChecksItsAddress := by
  unfold Obligations.SetPcChecksItsAddress
  refine fun a s => ⟨fun ha => ?_, fun ha => hostSetPc_of_ge ha s⟩
  have hpc : (BitVec.ofNat 16 a).toNat = a := by
    rw [BitVec.toNat_ofNat, Nat.mod_eq_of_lt ha]
  exact ⟨_, hostSetPc_of_lt ha s, hpc, rfl, rfl, rfl, rfl, rfl⟩

end Sys2Proof.Machine
end
